-- ==== Sys2Proof/Word.lean ====
section
/-! DEFINITION. The word types of the block: bytes, the 200-bit command word, the binary64 pattern of a brightness
fraction, and the three kinds of encoded word the opcode table has (command word, pixel frame, latch). -/

namespace Sys2Proof

/-- A colour channel as it is stored, or one byte of a transport. -/
abbrev Byte := BitVec 8

/-- The brightness-fraction operand: an IEEE 754 binary64 bit pattern (30_encoding R70, R81). -/
abbrev Frac := BitVec 64

/-- One encoded word, by the table's formats: `CW200` (R70), `FRAME32` (R86), `LATCH36` (R89). -/
inductive CodeWord where
  | command (cw : BitVec 200)
  | frame (f : BitVec 32)
  | latch (l : BitVec 36)
  deriving DecidableEq, Repr

/-- The two addresses of the line space: data and clock (20_memory R52). -/
inductive Line where
  | dat
  | clk
  deriving DecidableEq, Repr

end Sys2Proof
end

