-- ==== Sys2Proof/Config.lean ====
section
/-! DEFINITION. What an instance of the block fixes (00_scope R6), and the free values: constants with no body, so
that no proof can see what they are. -/

namespace Sys2Proof

/-- `LATCH_PULSES`: clock pulses of a latch (R6, R89, R236). -/
abbrev latchPulses : Nat := 36

/-- `PULSES_PER_SEND` (R6, R157). -/
abbrev pulsesPerSend : Nat := 328

/-- `WRITES_PER_SEND`: line writes of one send (R6, R157). -/
abbrev writesPerSend : Nat := 914

/-- `FRAME_PREFIX`: OR-ed into the brightness byte (R6, R86). -/
abbrev framePrefixByte : Byte := 0xE0#8

/-- The two named instances of `MUL31` (R85): the exact product, or the product rounded to the nearest binary64. -/
inductive Mul31 where
  | exact
  | ieee
  deriving DecidableEq, Repr

/-- The configuration function `ENC5_OOR` (R84): the spec's default, the other reading of the source
(90_conflicts C1), or any other function an implementation may have (a free value, `Config.oorCode`; log 3). -/
inductive Enc5Oor where
  | truncMod32
  | floorMod32
  | other
  deriving DecidableEq, Repr

/-- The open parameters of R6 that a command's result depends on. No command writes them. -/
structure Config where
  mul31 : Mul31
  oor : Enc5Oor
  deriving DecidableEq, Repr

/-- FREE VALUE: the brightness code of a non-finite operand or product, by draw number (R84; log 4). -/
opaque Config.freeBright : Nat → BitVec 5

/-- FREE VALUE: the code an implementation other than the two named ones gives a finite fraction outside [0, 1]
(R84 calls it implementation-defined; log 3). -/
opaque Config.oorCode : Frac → BitVec 5

/-- FREE VALUE: the platform pin of a line, `DATA_PIN` and `CLOCK_PIN` (R66, 92 D2). -/
opaque Config.pinId : Line → Nat

/-- FREE VALUE: whether opening a pin as a digital output succeeds, by draw number (R205, 92 D3; log 5). -/
opaque Config.openPin : Nat → Nat → Bool

/-- FREE VALUE: the level an observer finds on a pin whose level is unspecified, by observation number: it may differ
between observations (R25, 92 D7; log 7). -/
opaque Config.freePin : Line → Nat → Bool

/-- FREE VALUE: what sampling the writes of a send gives with a handle that is not `Ok`, by the number of line writes:
nothing can be claimed of it (42_send R167; log 25). -/
opaque Config.freeSamples : Nat → List Bool

end Sys2Proof
end

