-- ==== Sys2Proof/Machine/State.lean ====
section
/-! DEFINITION. The state of the block as 10_state R20 lists it, plain data, and the state after reset (R35). The
fields of `env` are the model's own: the open parameters, the inputs that are still to come, and what the host has
got back (logs 2 to 5, 14). -/

namespace Sys2Proof.Machine

/-- Lifecycle (R21). -/
inductive Mode where
  | uninit
  | ready
  deriving DecidableEq, Repr

/-- One slot of the strip buffer, stored already encoded (R23). -/
structure Pixel where
  r : Byte
  g : Byte
  b : Byte
  br : BitVec 5
  deriving DecidableEq, Repr

/-- A line handle: not yet acquired, acquired, or the open reported failure (R24). -/
inductive Handle where
  | none
  | ok
  | failed
  deriving DecidableEq, Repr

/-- One thing for each of the two lines. -/
structure Lines (α : Type) where
  dat : α
  clk : α
  deriving DecidableEq, Repr

/-- A line write: the line and the level, `true` for 1 (R29, R52). -/
abbrev Event := Line × Bool

/-- The diagnostic events: acquisition of a line failed (R30). -/
inductive LogEvent where
  | acqFail (l : Line)
  deriving DecidableEq, Repr

/-- The completion codes (60_exceptions R190). Codes 5 to 7 are never produced, so there is no constructor for them. -/
inductive Code where
  | ok
  | illegalCommand
  | notReady
  | alreadySetup
  | invalidArgument
  deriving DecidableEq, Repr

/-- `STATUS[11:8]`, the sticky fault bits (R28). -/
structure Faults where
  illegal : Bool
  notReady : Bool
  already : Bool
  invArg : Bool
  deriving DecidableEq, Repr

/-- What the host does while no command is in progress (60_exceptions R207): issue a command word, or sample
`STATUS`. Reset is `Env.rst`. -/
inductive HostAction where
  | command (cw : BitVec 200)
  | sample
  deriving DecidableEq, Repr

/-- What the host gets back (R207): a completion code, or the value of `STATUS`. -/
inductive Reply where
  | code (c : Code)
  | status (v : BitVec 16)
  deriving DecidableEq, Repr

/-- The GPIO collaborator's answer to an open (40_setup R102). -/
inductive OpenResult where
  | ok
  | failed
  deriving DecidableEq, Repr

/-- The model's own fields. No command's rule names them as state. -/
structure Env where
  /-- The open parameters of 00_scope R6 (log 3). -/
  cfg : Config
  /-- How many free values have been drawn (log 4). -/
  draws : Nat
  /-- The collaborator's answers to the coming opens, first to come first (R102; log 5). -/
  acq : List OpenResult
  /-- The host's coming actions, first to come first (R61; log 2). -/
  port : List HostAction
  /-- One entry a step: whether reset is asserted at that step. Empty is not asserted (R221; log 2). -/
  rst : List Bool
  /-- What the host has got back, oldest first (00_scope R12 (c); log 14). -/
  replies : List Reply
  deriving DecidableEq, Repr

/-- The state (R20). `pixels`, `h`, `pin`, `W` and `log` are the spec's `P`, `h`, `pin`, `W` and `LOG`; `last` and
`faults` are what `STATUS` stores, its other bits being views (R28, `State.status`). -/
structure State where
  mode : Mode
  /-- `P[0..7]`; `none` is an undefined slot (R34; log 6). -/
  pixels : Vector (Option Pixel) 8
  h : Lines Handle
  /-- `none` is an unspecified level (R25; log 7). -/
  pin : Lines (Option Bool)
  busy : Bool
  pos : Fin 914
  last : Code
  faults : Faults
  W : List Event
  log : List LogEvent
  env : Env
  deriving DecidableEq, Repr

/-- Why the machine stops with a fault. The four faults of 60_exceptions R190 are none of these: each completes its
command (R196; log 1). -/
inductive Fault where
  /-- A slot with no value is read (R34: it must not be read), by the serializer or by `SETBRIGHT`. Safe. It is raised
  only in states no run reaches (R33 (b); log 12). -/
  | undefinedSlot (i : Fin 8)
  deriving DecidableEq, Repr

/-- Why the model gives no meaning. -/
inductive Refusal where
  /-- An instruction rejected by name in `exec`. Safe. No arm raises it. -/
  | notModelled (mnemonic : String)
  /-- A command executed while a send is in progress, which the host cannot issue (20_memory R62, 60_exceptions R207).
  Safe. `step` never raises it (log 10). -/
  | commandWhileBusy
  /-- A wire symbol executed where the serializer is not sending that kind of symbol, so by a second writer of the lines
  (R62). Safe. `step` never raises it (log 9). -/
  | lineWriteOutsideSend
  deriving DecidableEq, Repr

/-- The model's own fields at reset: logs 2 to 5 and 14. -/
def Env.reset : Env :=
  { cfg := { mul31 := .exact, oor := .truncMod32 }, draws := 0, acq := [], port := [], rst := [], replies := [] }

/-- The state after reset (10_state R35, 70_reset_and_hazards R220). -/
def State.reset : State :=
  { mode := .uninit
    pixels := #v[none, none, none, none, none, none, none, none]
    h := { dat := .none, clk := .none }
    pin := { dat := none, clk := none }
    busy := false
    pos := 0
    last := .ok
    faults := { illegal := false, notReady := false, already := false, invArg := false }
    W := []
    log := []
    env := Env.reset }

end Sys2Proof.Machine
end

