-- ==== Sys2Proof/Machine/Flags.lean ====
section
/-! DEFINITION. The `STATUS` register (10_state R28): its view of the state, the code field and the sticky bits. -/

namespace Sys2Proof.Machine

/-- The 3-bit value of a completion code (60_exceptions R190). -/
def Code.bits : Code → BitVec 3
  | .ok => 0
  | .illegalCommand => 1
  | .notReady => 2
  | .alreadySetup => 3
  | .invalidArgument => 4

/-- The sticky bits after a command completes with `c`: the bit of its cause is set, no bit is cleared (R28, R196). -/
def Faults.record (f : Faults) (c : Code) : Faults :=
  match c with
  | .ok => f
  | .illegalCommand => { f with illegal := true }
  | .notReady => { f with notReady := true }
  | .alreadySetup => { f with already := true }
  | .invalidArgument => { f with invArg := true }

/-- `STATUS[11:8]`, `F_INVARG` the most significant. -/
def Faults.bits (f : Faults) : BitVec 4 :=
  BitVec.ofBool f.invArg ++ BitVec.ofBool f.already ++ BitVec.ofBool f.notReady ++ BitVec.ofBool f.illegal

/-- `STATUS` (R28). Bit 7 and bits 15:12 read 0. -/
def State.status (s : State) : BitVec 16 :=
  0#4 ++ s.faults.bits ++ 0#1 ++ s.last.bits ++ BitVec.ofBool (s.h.clk == .failed) ++
    BitVec.ofBool (s.h.dat == .failed) ++ BitVec.ofBool s.busy ++ BitVec.ofBool (s.mode == .ready)

end Sys2Proof.Machine
end

