-- ==== Sys2Proof/Syntax.lean ====
section
/-! DEFINITION. The syntax: one constructor per row of spec/opcode_table.json. The seven command forms and the
reserved opcodes are 30_encoding R77's `Command` type; the two wire symbols are what the serializer executes. -/

namespace Sys2Proof

/-- An index and a colour operand are integers (R77): the range a word can carry is `WellFormed`'s. A reserved opcode
keeps its opcode, which R77's `ILLEGAL` carries. -/
inductive Instr where
  | setup
  | setPixel (idx r g b : Int) (bf : Frac)
  | setPixelK (idx r g b : Int)
  | setAll (r g b : Int) (bf : Frac)
  | setBright (idx : Int) (bf : Frac)
  | clearAll
  | send
  | reserved00
  | reserved080F (op : Byte)
  | reserved101F (op : Byte)
  | reserved203F (op : Byte)
  | reserved407F (op : Byte)
  | reserved80FF (op : Byte)
  | pixelFrame (v : BitVec 5) (b g r : Byte)
  | latch
  deriving DecidableEq, Repr

/-- The kind of a row of the opcode table. -/
inductive Kind where
  | command
  | reserved
  | wireSymbol
  deriving DecidableEq, Repr

/-- The table's `kind` of each row. -/
def Instr.kind : Instr → Kind
  | .setup => .command
  | .setPixel .. => .command
  | .setPixelK .. => .command
  | .setAll .. => .command
  | .setBright .. => .command
  | .clearAll => .command
  | .send => .command
  | .reserved00 => .reserved
  | .reserved080F _ => .reserved
  | .reserved101F _ => .reserved
  | .reserved203F _ => .reserved
  | .reserved407F _ => .reserved
  | .reserved80FF _ => .reserved
  | .pixelFrame .. => .wireSymbol
  | .latch => .wireSymbol

end Sys2Proof
end

