-- ==== Sys2Proof/WellFormed.lean ====
section
/-! DEFINITION. Which instructions have a word: integer operands that fit a signed 32-bit field (30_encoding R71), and a
reserved opcode inside its row's range (R74 and the opcode table). -/

namespace Sys2Proof

/-- `z` is the value of a signed 32-bit field: `-2^31 .. 2^31 - 1` (R71). -/
def fitsS32 (z : Int) : Bool := decide (-2147483648 ≤ z) && decide (z ≤ 2147483647)

/-- `op` lies in a row's range of opcodes. -/
def opIn (lo hi : Nat) (op : Byte) : Bool := decide (lo ≤ op.toNat) && decide (op.toNat ≤ hi)

/-- The checks of the syntax. A brightness fraction is any bit pattern and a frame any fields (R81, R86). -/
def Instr.wf : Instr → Bool
  | .setup => true
  | .setPixel idx r g b _ => fitsS32 idx && fitsS32 r && fitsS32 g && fitsS32 b
  | .setPixelK idx r g b => fitsS32 idx && fitsS32 r && fitsS32 g && fitsS32 b
  | .setAll r g b _ => fitsS32 r && fitsS32 g && fitsS32 b
  | .setBright idx _ => fitsS32 idx
  | .clearAll => true
  | .send => true
  | .reserved00 => true
  | .reserved080F op => opIn 0x08 0x0F op
  | .reserved101F op => opIn 0x10 0x1F op
  | .reserved203F op => opIn 0x20 0x3F op
  | .reserved407F op => opIn 0x40 0x7F op
  | .reserved80FF op => opIn 0x80 0xFF op
  | .pixelFrame .. => true
  | .latch => true

end Sys2Proof
end

