-- ==== Sys2Proof/Decode.lean ====
section
/-! DEFINITION. Decoding (30_encoding R70 to R76, R86, R89; 20_memory R55) and, after it, the encoder. -/

namespace Sys2Proof

/-! ## Fields of the command word (R70, R71) -/

/-- `OP = CW[199:192]`. -/
def opField (cw : BitVec 200) : Byte := cw.extractLsb' 192 8

/-- `int(v) = v[30:0] - 2^31 * v[31]`: the two's complement value of a 32-bit field (R71). -/
def int32 (v : BitVec 32) : Int := v.toInt

/-- `idx = int(IDX)`, `IDX = CW[191:160]`. -/
def idxField (cw : BitVec 200) : Int := int32 (cw.extractLsb' 160 32)

/-- `r = int(R)`, `R = CW[159:128]`. -/
def rField (cw : BitVec 200) : Int := int32 (cw.extractLsb' 128 32)

/-- `g = int(G)`, `G = CW[127:96]`. -/
def gField (cw : BitVec 200) : Int := int32 (cw.extractLsb' 96 32)

/-- `b = int(B)`, `B = CW[95:64]`. -/
def bField (cw : BitVec 200) : Int := int32 (cw.extractLsb' 64 32)

/-- `BF = CW[63:0]`, passed on unchanged. -/
def bfField (cw : BitVec 200) : Frac := cw.extractLsb' 0 64

/-- The row a reserved opcode belongs to: the six rows of the table partition them (R74). -/
def reservedRow (op : Byte) : Instr :=
  if op.toNat = 0 then .reserved00
  else if op.toNat ≤ 0x0F then .reserved080F op
  else if op.toNat ≤ 0x1F then .reserved101F op
  else if op.toNat ≤ 0x3F then .reserved203F op
  else if op.toNat ≤ 0x7F then .reserved407F op
  else .reserved80FF op

/-- R75: the opcode alone selects the command, which reads the fields R72 gives it and no other (R73). Total: a
reserved opcode decodes to its reserved row, the illegal command of R74. -/
def decode (cw : BitVec 200) : Instr :=
  match (opField cw).toNat with
  | 1 => .setup
  | 2 => .setPixel (idxField cw) (rField cw) (gField cw) (bField cw) (bfField cw)
  | 3 => .setPixelK (idxField cw) (rField cw) (gField cw) (bField cw)
  | 4 => .setAll (rField cw) (gField cw) (bField cw) (bfField cw)
  | 5 => .setBright (idxField cw) (bfField cw)
  | 6 => .clearAll
  | 7 => .send
  | _ => reservedRow (opField cw)

/-! ## Words that are no instruction, by name -/

/-- Why a word or a list of bytes is no instruction. -/
inductive DecodeError where
  /-- A command word is 25 bytes and nothing else (R55, R76). -/
  | wrongLength (n : Nat)
  /-- A pixel frame's top three bits are 1 (R86). -/
  | notAFrame (f : BitVec 32)
  /-- The latch symbol is 36 zero bits (R89). -/
  | notALatch (l : BitVec 36)
  deriving DecidableEq, Repr

/-- The 25 bytes of a command word, most significant first (R55). -/
def cwBytes (cw : BitVec 200) : List Byte :=
  (List.range 25).map fun k => cw.extractLsb' (8 * (24 - k)) 8

/-- The number that bytes denote, most significant first. -/
def bytesNat (bs : List Byte) : Nat := bs.foldl (fun n b => n * 256 + b.toNat) 0

/-- Decoding of the byte transport (R55): total on any bytes. -/
def decodeBytes (bs : List Byte) : Except DecodeError Instr :=
  if bs.length = 25 then .ok (decode (BitVec.ofNat 200 (bytesNat bs)))
  else .error (.wrongLength bs.length)

/-- The pixel frame `111vvvvvbbbbbbbbggggggggrrrrrrrr` (R86). -/
def decodeFrame (f : BitVec 32) : Except DecodeError Instr :=
  if f.extractLsb' 29 3 = 0b111#3 then
    .ok (.pixelFrame (f.extractLsb' 24 5) (f.extractLsb' 16 8) (f.extractLsb' 8 8) (f.extractLsb' 0 8))
  else .error (.notAFrame f)

/-- The latch symbol: 36 zero bits (R89). -/
def decodeLatch (l : BitVec 36) : Except DecodeError Instr :=
  if l = 0#36 then .ok .latch else .error (.notALatch l)

/-- The decoder on a word of any of the table's formats. -/
def decodeWord : CodeWord → Except DecodeError Instr
  | .command cw => .ok (decode cw)
  | .frame f => decodeFrame f
  | .latch l => decodeLatch l

/-- The word that the table's bits are: `nbits` is the row's width in whole bytes (200 a command word, 32 a frame, 36 or
40 a latch), bit 0 the least significant bit of the one word each format has (log 15). -/
def tableWord (nbits w : Nat) : Option CodeWord :=
  match nbits with
  | 200 => if w < 2 ^ 200 then some (.command (BitVec.ofNat 200 w)) else none
  | 32 => if w < 2 ^ 32 then some (.frame (BitVec.ofNat 32 w)) else none
  | 36 => if w < 2 ^ 36 then some (.latch (BitVec.ofNat 36 w)) else none
  | 40 => if w < 2 ^ 36 then some (.latch (BitVec.ofNat 36 w)) else none
  | _ => none

/-- The instruction the decoder reads from the table's bits `w`. A command word goes through its 25 bytes. -/
def decodeTableWord (nbits w : Nat) : Option Instr :=
  match tableWord nbits w with
  | some (.command cw) => (decodeBytes (cwBytes cw)).toOption
  | some c => (decodeWord c).toOption
  | none => none

/-! ## The encoder -/

/-- The 32-bit two's complement field of an integer (R71). -/
def field32 (z : Int) : BitVec 32 := BitVec.ofInt 32 z

/-- A command word from its six fields (R70). -/
def commandWord (op : Byte) (idx r g b : Int) (bf : Frac) : BitVec 200 :=
  op ++ field32 idx ++ field32 r ++ field32 g ++ field32 b ++ bf

/-- The frame `{0b111, v, b, g, r}` (R86). -/
def frameWord (v : BitVec 5) (b g r : Byte) : BitVec 32 := 0b111#3 ++ v ++ b ++ g ++ r

/-- The canonical word of an instruction: zero in every field the command does not use (R73), opcodes by R72. -/
def encode : Instr → CodeWord
  | .setup => .command (commandWord 0x01 0 0 0 0 0)
  | .setPixel idx r g b bf => .command (commandWord 0x02 idx r g b bf)
  | .setPixelK idx r g b => .command (commandWord 0x03 idx r g b 0)
  | .setAll r g b bf => .command (commandWord 0x04 0 r g b bf)
  | .setBright idx bf => .command (commandWord 0x05 idx 0 0 0 bf)
  | .clearAll => .command (commandWord 0x06 0 0 0 0 0)
  | .send => .command (commandWord 0x07 0 0 0 0 0)
  | .reserved00 => .command (commandWord 0x00 0 0 0 0 0)
  | .reserved080F op => .command (commandWord op 0 0 0 0 0)
  | .reserved101F op => .command (commandWord op 0 0 0 0 0)
  | .reserved203F op => .command (commandWord op 0 0 0 0 0)
  | .reserved407F op => .command (commandWord op 0 0 0 0 0)
  | .reserved80FF op => .command (commandWord op 0 0 0 0 0)
  | .pixelFrame v b g r => .frame (frameWord v b g r)
  | .latch => .latch 0#36

end Sys2Proof
end

