-- ==== Sys2Proof/Machine/Operands.lean ====
section
/-! DEFINITION. Operand encodings: the colour mask (30_encoding R80), the value of a brightness fraction (R81), its
encoding (R82 to R85), the slot index (20_memory R57) and the wire frame of a slot (R86). -/

namespace Sys2Proof.Machine

/-! ## Colour (R80) -/

/-- `chan8` of an integer: `v mod 256`, the low 8 bits of its two's complement form. -/
def chan8 (v : Int) : Byte := BitVec.ofInt 8 v

/-- `chan8` of the number `num / den`: truncation toward zero, then the mask. R80's general rule, for an operand with
a fractional part; a command word cannot carry one (R77). -/
def chan8Frac (num : Int) (den : Nat) : Byte := chan8 (num.tdiv den)

/-! ## Brightness (R81 to R85). Every finite binary64 is a whole multiple of `2^(-1074)`, so a finite value, and the
product, is held as the integer number of these units. -/

/-- The number of units in 1.0. -/
def unitsPerOne : Nat := 2 ^ 1074

/-- `val` (R81), in units of `2^(-1074)`; `none` is `nonfinite`. -/
def val (bf : Frac) : Option Int :=
  let e := (bf.extractLsb' 52 11).toNat
  let m := (bf.extractLsb' 0 52).toNat
  let mag : Nat := if e = 0 then m else (2 ^ 52 + m) * 2 ^ (e - 1)
  if e = 2047 then none else some (if bf.getLsbD 63 then -(mag : Int) else (mag : Int))

/-- The whole number nearest to `n / d`, ties to even. -/
def nearestEven (n d : Nat) : Nat :=
  let q := n / d
  let r := n % d
  if d < 2 * r ∨ (2 * r = d ∧ q % 2 = 1) then q + 1 else q

/-- A whole number of units rounded to 53 significant bits, nearest, ties to even: the nearest binary64 when it does
not overflow (R85, the `ieee` instance). -/
def roundBinary64 (n : Nat) : Nat :=
  let sh := n.log2 - 52
  nearestEven n (2 ^ sh) * 2 ^ sh

/-- Where a rounded magnitude overflows to infinity: `2^1024` in units. -/
def overflowUnits : Nat := 2 ^ 2098

/-- `MUL31` (R85), in units; `none` where the product overflows to a non-finite one. -/
def mul31 (m : Mul31) (v : Int) : Option Int :=
  match m with
  | .exact => some (31 * v)
  | .ieee =>
    let p := roundBinary64 (31 * v.natAbs)
    if overflowUnits ≤ p then none else some (if v < 0 then -(p : Int) else (p : Int))

/-- `floor(p) mod 32`. -/
def floorMod32 (p : Int) : BitVec 5 := BitVec.ofInt 5 (p / (unitsPerOne : Int))

/-- `trunc(p) mod 32`. -/
def truncMod32 (p : Int) : BitVec 5 := BitVec.ofInt 5 (p.tdiv (unitsPerOne : Int))

/-- `ENC5_OOR` (R84): the code of a finite fraction outside [0, 1] whose product is `p`. -/
def enc5Oor (o : Enc5Oor) (bf : Frac) (p : Int) : BitVec 5 :=
  match o with
  | .truncMod32 => truncMod32 p
  | .floorMod32 => floorMod32 p
  | .other => Config.oorCode bf

/-- A fraction inside [0, 1] (R82). -/
def inUnitRange (v : Int) : Bool := decide (0 ≤ v) && decide (v ≤ (unitsPerOne : Int))

/-- `enc5` (R82, R84); `none` where the code is a draw: a non-finite operand or product. -/
def enc5 (c : Config) (bf : Frac) : Option (BitVec 5) :=
  match val bf with
  | none => none
  | some v =>
    match mul31 c.mul31 v with
    | none => none
    | some p => some (if inUnitRange v then floorMod32 p else enc5Oor c.oor bf p)

/-! ## Slot index (R57, R194) -/

/-- The slot an index names: signed comparison `0 <= idx <= 7` (R91 (e)). -/
def slotIndex (idx : Int) : Option (Fin 8) :=
  if h : 0 ≤ idx ∧ idx ≤ 7 then some ⟨idx.toNat, by omega⟩ else none

/-! ## Wire frame (R86) -/

/-- `frame(i)` of a slot's content. -/
def Pixel.frame (p : Pixel) : BitVec 32 := frameWord p.br p.b p.g p.r

/-- `INIT_PIXEL`: the value of every slot after `SETUP` (R103). -/
def initPixel : Pixel := { r := 255, g := 255, b := 255, br := 31 }

/-- The brightness a command that keeps it finds in a slot: the stored code, and 31 where no value is stored
(R123, R124). -/
def keptBrightness (o : Option Pixel) : BitVec 5 := (o.map Pixel.br).getD 31

end Sys2Proof.Machine
end

