-- ==== Sys2Proof/Machine/Ops.lean ====
section
/-! DEFINITION. The named operations over the state: one setter per part of it, the accessors of a slot and of a line,
the line write (42_send R151), completing a command and raising a fault (60_exceptions R190, R196), the admission checks
(R198), the draws, and reset (70 R220 to R222). -/

namespace Sys2Proof.Machine

/-- The outcome of a step of this machine. -/
abbrev Out := Host.Outcome State Fault Refusal

/-! ## Accessors -/

/-- The part of a pair that belongs to line `l`. -/
def Lines.get {α : Type} (x : Lines α) (l : Line) : α :=
  match l with
  | .dat => x.dat
  | .clk => x.clk

/-- The pair with line `l`'s part replaced. -/
def Lines.set {α : Type} (x : Lines α) (l : Line) (a : α) : Lines α :=
  match l with
  | .dat => { x with dat := a }
  | .clk => { x with clk := a }

/-- `P[i]` (00_scope R8's `MemRead(i, 1)`). -/
def State.slot (s : State) (i : Fin 8) : Option Pixel := s.pixels[i]

/-! ## Setters -/

def State.setMode (s : State) (m : Mode) : State := { s with mode := m }

/-- `P[i] <- p` (R8's `MemWrite(i, 1, p)`). -/
def State.setSlot (s : State) (i : Fin 8) (p : Pixel) : State := { s with pixels := s.pixels.set i (some p) }

/-- Every slot, in index order and each once, becomes `f` of what it held (20_memory R59). -/
def State.mapSlots (s : State) (f : Option Pixel → Pixel) : State :=
  { s with pixels := #v[some (f (s.slot 0)), some (f (s.slot 1)), some (f (s.slot 2)), some (f (s.slot 3)),
      some (f (s.slot 4)), some (f (s.slot 5)), some (f (s.slot 6)), some (f (s.slot 7))] }

def State.setHandle (s : State) (l : Line) (x : Handle) : State := { s with h := s.h.set l x }

def State.setPin (s : State) (l : Line) (v : Bool) : State := { s with pin := s.pin.set l (some v) }

/-- The serializer's state (10_state R26, R27). -/
def State.setSerializer (s : State) (busy : Bool) (pos : Fin 914) : State := { s with busy := busy, pos := pos }

/-- What `STATUS` stores. -/
def State.setStatus (s : State) (c : Code) (f : Faults) : State := { s with last := c, faults := f }

def State.addEvent (s : State) (e : Event) : State := { s with W := s.W ++ [e] }

def State.addLog (s : State) (e : LogEvent) : State := { s with log := s.log ++ [e] }

def State.setEnv (s : State) (e : Env) : State := { s with env := e }

/-! ## Completion and faults -/

/-- Gives something back to the host. -/
def reply (r : Reply) (s : State) : State := s.setEnv { s.env with replies := s.env.replies ++ [r] }

/-- A command completes with code `c`: `LAST` takes it, its sticky bit is set if it is a fault, and the code is returned
(60_exceptions R190, R196 (a) to (c)). -/
def complete (c : Code) (s : State) : State := reply (.code c) (s.setStatus c (s.faults.record c))

/-- TAKING A FAULT (R196): the command completes with the fault's code and changes nothing else. Control goes nowhere, and
there is nothing to return from (R199). -/
def raise (c : Code) (s : State) : State := complete c s

/-! ## Admission (R198): busy, then mode, then index -/

/-- A command acts only while no send is in progress: the host issues none then (R207, 20_memory R62). -/
def whenIdle (s : State) (k : Out) : Out := if s.busy then .refused .commandWhileBusy else k

/-- Every legal command but `SETUP` needs `Ready` (R192). -/
def whenReady (s : State) (k : Out) : Out :=
  match s.mode with
  | .uninit => .next (raise .notReady s)
  | .ready => k

/-- `SETUP` needs `Uninit` (R193). -/
def whenUninit (s : State) (k : Out) : Out :=
  match s.mode with
  | .ready => .next (raise .alreadySetup s)
  | .uninit => k

/-- An index operand must name a slot (R194). -/
def atIndex (idx : Int) (s : State) (k : Fin 8 → Out) : Out :=
  match slotIndex idx with
  | none => .next (raise .invalidArgument s)
  | some i => k i

/-! ## Draws -/

/-- The brightness code a fraction operand is encoded to, and the state after the draw where one is made (30_encoding
R82, R84): one draw a command. -/
def brightCode (bf : Frac) (s : State) : BitVec 5 × State :=
  match enc5 s.env.cfg bf with
  | some c => (c, s)
  | none => (Config.freeBright s.env.draws, s.setEnv { s.env with draws := s.env.draws + 1 })

/-- The collaborator's answer to an open of line `l`, and the state after it (40_setup R102, 60_exceptions R205): the next
listed answer, or a free one. -/
def openLine (l : Line) (s : State) : OpenResult × State :=
  match s.env.acq with
  | a :: rest => (a, s.setEnv { s.env with acq := rest })
  | [] =>
    (if Config.openPin (Config.pinId l) s.env.draws then .ok else .failed,
      s.setEnv { s.env with draws := s.env.draws + 1 })

/-- The handle an open leaves (R24). -/
def OpenResult.handle : OpenResult → Handle
  | .ok => .ok
  | .failed => .failed

/-- Acquires line `l` (R101): the handle takes the outcome, and a failure is logged. -/
def acquire (l : Line) (s : State) : State :=
  let (a, t) := openLine l s
  let u := t.setHandle l a.handle
  match a with
  | .ok => u
  | .failed => u.addLog (.acqFail l)

/-! ## Lines -/

/-- `LineWrite(l, v)` (42_send R151): the event is recorded whether or not the handle works; the pin takes the level only
when it does. -/
def lineWrite (e : Event) (s : State) : State :=
  let t := s.addEvent e
  match s.h.get e.1 with
  | .ok => t.setPin e.1 e.2
  | .none => t
  | .failed => t

/-- One serializer step that performs `e` (R158), and the end of the send after position 913 (R159). -/
def serialize (e : Event) (s : State) : State :=
  let t := lineWrite e s
  if s.pos = 913 then complete .ok (t.setSerializer false 0) else t.setSerializer true (s.pos + 1)

/-! ## Reset -/

/-- Reset (70_reset_and_hazards R220 to R222): every part of the block takes its reset value; what is not the block's (its
parameters, the inputs to come, what the host has got back) stays (log 11). -/
def takeReset (s : State) : State := State.reset.setEnv s.env

end Sys2Proof.Machine
end

