-- ==== Sys2Proof/Machine/Buffer.lean ====
section
/-! DEFINITION. The buffer commands, 41_buffer_ops. Operands are encoded, and a draw made, only after every check has
passed (R120, 60_exceptions R198). -/

namespace Sys2Proof.Machine

/-- `SETPIXEL` (R121, R122): the whole slot. -/
def execSetPixel (idx r g b : Int) (bf : Frac) (s : State) : Out :=
  whenIdle s <| whenReady s <| atIndex idx s fun i =>
    let (c, t) := brightCode bf s
    .next (complete .ok (t.setSlot i { r := chan8 r, g := chan8 g, b := chan8 b, br := c }))

/-- `SETPIXELK` (R123, R124): the colours; the stored code is kept. -/
def execSetPixelK (idx r g b : Int) (s : State) : Out :=
  whenIdle s <| whenReady s <| atIndex idx s fun i =>
    .next (complete .ok
      (s.setSlot i { r := chan8 r, g := chan8 g, b := chan8 b, br := keptBrightness (s.slot i) }))

/-- `SETALL` (R125, R126): one encoding, and at most one draw, for all eight slots. -/
def execSetAll (r g b : Int) (bf : Frac) (s : State) : Out :=
  whenIdle s <| whenReady s <|
    let (c, t) := brightCode bf s
    .next (complete .ok (t.mapSlots fun _ => { r := chan8 r, g := chan8 g, b := chan8 b, br := c }))

/-- `SETBRIGHT` (R127, R128): the brightness field only. The slot must have been set (R128 (a)): one that has no value
cannot take a brightness and keep undefined colours, so it stops the machine (log 12). -/
def execSetBright (idx : Int) (bf : Frac) (s : State) : Out :=
  whenIdle s <| whenReady s <| atIndex idx s fun i =>
    match s.slot i with
    | none => .fault (.undefinedSlot i)
    | some p =>
      let (c, t) := brightCode bf s
      .next (complete .ok (t.setSlot i { p with br := c }))

/-- `CLEARALL` (R129, R130): colours 0 in every slot, each slot's own brightness kept. -/
def execClearAll (s : State) : Out :=
  whenIdle s <| whenReady s <|
    .next (complete .ok (s.mapSlots fun o => { r := 0, g := 0, b := 0, br := keptBrightness o }))

end Sys2Proof.Machine
end

