-- ==== Sys2Proof/Machine/Lifecycle.lean ====
section
/-! DEFINITION. The lifecycle command, 40_setup. -/

namespace Sys2Proof.Machine

/-- `SETUP` (R101 to R106): the data line is acquired first and the clock line second, every slot takes the initial
pixel, and the block is `Ready`. -/
def execSetup (s : State) : Out :=
  whenIdle s <| whenUninit s <|
    .next (complete .ok (((acquire .clk (acquire .dat s)).mapSlots fun _ => initPixel).setMode .ready))

end Sys2Proof.Machine
end

