-- ==== Sys2Proof/Machine/Reserved.lean ====
section
/-! DEFINITION. The reserved opcodes (30_encoding R74): each completes with `IllegalCommand` in either mode, before any
other check (60_exceptions R191), and the opcode is not recorded (R190). -/

namespace Sys2Proof.Machine

/-- `IllegalCommand` (R191). -/
def illegalCommand (s : State) : Out := whenIdle s <| .next (raise .illegalCommand s)

def execReserved00 (s : State) : Out := illegalCommand s

def execReserved080F (_op : Byte) (s : State) : Out := illegalCommand s

def execReserved101F (_op : Byte) (s : State) : Out := illegalCommand s

def execReserved203F (_op : Byte) (s : State) : Out := illegalCommand s

def execReserved407F (_op : Byte) (s : State) : Out := illegalCommand s

def execReserved80FF (_op : Byte) (s : State) : Out := illegalCommand s

end Sys2Proof.Machine
end

