-- ==== Sys2Proof/Machine/Wire.lean ====
section
/-! DEFINITION. What a send writes on the lines. First by position, as the serializer goes (42_send R152 to R156); then
as the pseudocode of R150 has it, whole. -/

namespace Sys2Proof.Machine

/-! ## By position -/

/-- Event `k` of a latch, `k` in 0..72: data low, then 36 pulses (30_encoding R89; 42_send R153, R156). -/
def latchEvent (k : Nat) : Event :=
  if k = 0 then (.dat, false)
  else if (k - 1) % 2 = 0 then (.clk, true) else (.clk, false)

/-- Event `u` of the frame segment where the slot being sent has frame `f`: cell `q = u div 3`, its bit
`31 - q mod 32` of `f`, then the pulse (R154). -/
def frameEvent (f : BitVec 32) (u : Nat) : Event :=
  let q := u / 3
  let n := q % 32
  match u % 3 with
  | 0 => (.dat, f.getLsbD (31 - n))
  | 1 => (.clk, true)
  | _ => (.clk, false)

/-- Where the serializer stands: in a latch at event `k`, or in the frame segment at `u` (R152). -/
inductive Segment where
  | latch (k : Nat)
  | frames (u : Nat)
  deriving DecidableEq, Repr

/-- The three segments: start latch 0..72, frames 73..840, end latch 841..913 (R152). -/
def segmentOf (pos : Nat) : Segment :=
  if pos < 73 then .latch pos
  else if pos < 841 then .frames (pos - 73)
  else .latch (pos - 841)

/-- The slot that event `u` of the frame segment belongs to: `i = q div 32` (R154). -/
def slotOf (u : Nat) : Fin 8 := Fin.ofNat 8 (u / 3 / 32)

/-- `ev(pos, P)` (R152). -/
def ev (pos : Nat) (p : Fin 8 → Pixel) : Event :=
  match segmentOf pos with
  | .latch k => latchEvent k
  | .frames u => frameEvent (p (slotOf u)).frame u

/-- The wire symbol the serializer is sending: the latch, or the pixel frame of the slot it is at. A slot with no value
must not be read (10_state R34). -/
def State.symbol (s : State) : Except Fault Instr :=
  match segmentOf s.pos.val with
  | .latch _ => .ok .latch
  | .frames u =>
    match s.slot (slotOf u) with
    | some p => .ok (.pixelFrame p.br p.b p.g p.r)
    | none => .error (.undefinedSlot (slotOf u))

/-! ## Whole (R150) -/

/-- `Pulse()`: the clock high, then low. -/
def pulse : List Event := [(.clk, true), (.clk, false)]

/-- `Latch()`: data low, then 36 pulses. -/
def latchEvents : List Event := (.dat, false) :: (List.replicate latchPulses pulse).flatten

/-- `WriteByte(y)`: bit 7 down to bit 0, each one data write and one pulse (30_encoding R88). -/
def writeByteEvents (y : Byte) : List Event :=
  [7, 6, 5, 4, 3, 2, 1, 0].flatMap fun t => (.dat, y.getLsbD t) :: pulse

/-- The four bytes of a slot, brightness byte, blue, green, red. -/
def pixelEvents (p : Pixel) : List Event :=
  writeByteEvents (framePrefixByte ||| p.br.setWidth 8) ++ writeByteEvents p.b ++ writeByteEvents p.g ++
    writeByteEvents p.r

/-- The line writes of one `SEND`: start latch, the eight slots in index order, end latch. -/
def sendEvents (p : Fin 8 → Pixel) : List Event :=
  latchEvents ++ (List.finRange 8).flatMap (fun i => pixelEvents (p i)) ++ latchEvents

/-- The slots of `s` hold the pixels `p`. -/
def State.Holds (s : State) (p : Fin 8 → Pixel) : Prop := ∀ i, s.slot i = some (p i)

/-- Line writes performed one after another. -/
def lineWrites (es : List Event) (s : State) : State := es.foldl (fun t e => lineWrite e t) s

/-- `SEND` as one transition (R150, R160): every line write of the send, then completion. `step` takes the small steps of
R158 instead (log 8). -/
def sendWhole (p : Fin 8 → Pixel) (s : State) : State := complete .ok (lineWrites (sendEvents p) s)

end Sys2Proof.Machine
end

