-- ==== Sys2Proof/Machine/Send.lean ====
section
/-! DEFINITION. The transmission command, 42_send, and the two wire symbols the serializer executes, one line write a
step (R158, R159). -/

namespace Sys2Proof.Machine

/-- `SEND`: admission (R158). The 914 steps that follow are `execLatch` and `execPixelFrame`, and the last of them completes
the command (R159). -/
def execSend (s : State) : Out := whenIdle s <| whenReady s <| .next (s.setSerializer true 0)

/-- `LATCH` (30_encoding R89): the line write of the latch at the serializer's position (R153, R156). Where the serializer
is not in a latch, only a second writer of the lines would send one (20_memory R62; log 9). -/
def execLatch (s : State) : Out :=
  match s.busy, segmentOf s.pos.val with
  | true, .latch k => .next (serialize (latchEvent k) s)
  | _, _ => .refused .lineWriteOutsideSend

/-- `PIXEL_FRAME` (30_encoding R86): the line write of the frame `{0b111, v, b, g, r}` at the serializer's position
(R154). Where the serializer is not in the frame segment: as `execLatch`. -/
def execPixelFrame (v : BitVec 5) (b g r : Byte) (s : State) : Out :=
  match s.busy, segmentOf s.pos.val with
  | true, .frames u => .next (serialize (frameEvent (frameWord v b g r) u) s)
  | _, _ => .refused .lineWriteOutsideSend

end Sys2Proof.Machine
end

