-- ==== Sys2Proof/Machine/Dispatch.lean ====
section
/-! DEFINITION. One arm per instruction. -/

namespace Sys2Proof.Machine

def exec (i : Instr) (s : State) : Host.Outcome State Fault Refusal :=
  match i with
  | .setup => Sys2Proof.Machine.execSetup s
  | .setPixel idx r g b bf => Sys2Proof.Machine.execSetPixel idx r g b bf s
  | .setPixelK idx r g b => Sys2Proof.Machine.execSetPixelK idx r g b s
  | .setAll r g b bf => Sys2Proof.Machine.execSetAll r g b bf s
  | .setBright idx bf => Sys2Proof.Machine.execSetBright idx bf s
  | .clearAll => Sys2Proof.Machine.execClearAll s
  | .send => Sys2Proof.Machine.execSend s
  | .reserved00 => Sys2Proof.Machine.execReserved00 s
  | .reserved080F op => Sys2Proof.Machine.execReserved080F op s
  | .reserved101F op => Sys2Proof.Machine.execReserved101F op s
  | .reserved203F op => Sys2Proof.Machine.execReserved203F op s
  | .reserved407F op => Sys2Proof.Machine.execReserved407F op s
  | .reserved80FF op => Sys2Proof.Machine.execReserved80FF op s
  | .pixelFrame v b g r => Sys2Proof.Machine.execPixelFrame v b g r s
  | .latch => Sys2Proof.Machine.execLatch s

end Sys2Proof.Machine
end

