-- ==== Sys2Proof/Machine/Fetch.lean ====
section
/-! DEFINITION. What the machine does next: take a reset, let the serializer move, take the host's next action, or idle
(00_scope R10; 60_exceptions R207, R210). -/

namespace Sys2Proof.Machine

/-- What a step turns out to be: an instruction to run at a state, or something done without one. -/
inductive Fetched where
  | run (i : Instr) (s : State)
  | done (o : Out)

/-- Whether reset is asserted at this step (70 R221). -/
def resetNow (s : State) : Bool := s.env.rst.headD false

/-- The reset input moves on to the next step. -/
def tickReset (s : State) : State := s.setEnv { s.env with rst := s.env.rst.tail }

/-- The host's actions still to come become `rest`. -/
def setPort (rest : List HostAction) (s : State) : State := s.setEnv { s.env with port := rest }

/-- The host samples `STATUS`: it gets the value and nothing else changes (R207). -/
def sampleStatus (s : State) : State := reply (.status s.status) s

/-- The host's next action, which it takes only while no send is in progress (10_state R26); with none, the block idles
(R210; log 18). -/
def fetchAction (s : State) : Fetched :=
  match s.env.port with
  | [] => .done (.next s)
  | .sample :: rest => .done (.next (sampleStatus (setPort rest s)))
  | .command cw :: rest => .run (decode cw) (setPort rest s)

/-- The wire symbol in progress, while a send is (R158). -/
def fetchSymbol (s : State) : Fetched :=
  match s.symbol with
  | .ok i => .run i s
  | .error f => .done (.fault f)

/-- What this step is. Reset comes before everything (R207: any time). -/
def fetch (s : State) : Fetched :=
  let t := tickReset s
  if resetNow s then .done (.next (takeReset t))
  else if t.busy then fetchSymbol t
  else fetchAction t

/-- The state in which the next step runs the word `c` (log 15): a command word is put at the head of the host's actions
with no send in progress; for a pixel frame, slot 0 holds its fields and the serializer is at that slot's first event;
for the latch, the serializer is at the start of a send. Reset is not asserted. A word that is no wire symbol is not
placed. -/
def placeWord (c : CodeWord) (s : State) : State :=
  let t := s.setEnv { s.env with rst := [] }
  match c with
  | .command cw => setPort (.command cw :: t.env.port) (t.setSerializer false 0)
  | .frame f =>
    match decodeFrame f with
    | .ok (.pixelFrame v b g r) => (t.setSlot 0 { r := r, g := g, b := b, br := v }).setSerializer true 73
    | _ => s
  | .latch l => if l = 0#36 then t.setSerializer true 0 else s

end Sys2Proof.Machine
end

