-- ==== Sys2Proof/Machine/Written.lean ====
section
/-! DEFINITION. The written form of a command (30_encoding R78): the call syntax of the source's API, its operands as
integers and decimal fractions, and the word it stands for. Not part of a step. -/

namespace Sys2Proof.Machine

/-- A written decimal fraction: `num / 10^places`. -/
structure Decimal where
  num : Int
  places : Nat
  deriving DecidableEq, Repr

/-- The bit pattern, without its sign, of a magnitude of whole units that has at most 53 significant bits (R81). -/
def magnitudeBits (mag : Nat) : Nat :=
  if overflowUnits ≤ mag then 0x7FF0000000000000
  else if mag < 2 ^ 52 then mag
  else
    let k := mag.log2 - 52
    (k + 1) * 2 ^ 52 + (mag / 2 ^ k - 2 ^ 52)

/-- The nearest binary64 to a written decimal fraction, ties to even (R78). DESIGN CHOICE (log 23): where that is a zero,
its sign is that of `num`, and a written zero, `-0.0` too, is `+0`; R78 does not say which zero it is. -/
def Decimal.frac (d : Decimal) : Frac :=
  let den := 10 ^ d.places
  let n := d.num.natAbs * unitsPerOne
  let sh := (n / den).log2 - 52
  let bits := magnitudeBits (nearestEven n (den * 2 ^ sh) * 2 ^ sh)
  BitVec.ofNat 64 (if d.num < 0 then 2 ^ 63 + bits else bits)

/-- The written forms: `setPixel` with and without its fraction, and no other form without one (R78). -/
inductive Written where
  | setup
  | setPixel (i r g b : Int) (f : Decimal)
  | setPixelOmitted (i r g b : Int)
  | setAllPixels (r g b : Int) (f : Decimal)
  | setBrightness (i : Int) (f : Decimal)
  | clearAll
  | sendUpdate
  deriving DecidableEq, Repr

/-- The command of a written form (R78's table). -/
def Written.command : Written → Instr
  | .setup => .setup
  | .setPixel i r g b f => .setPixel i r g b f.frac
  | .setPixelOmitted i r g b => .setPixelK i r g b
  | .setAllPixels r g b f => .setAll r g b f.frac
  | .setBrightness i f => .setBright i f.frac
  | .clearAll => .clearAll
  | .sendUpdate => .send

/-- The canonical word an assembler emits (R73, R78). DESIGN CHOICE (log 24): a written integer that its signed 32-bit
field cannot hold (R71) has no word; the spec does not say what an assembler does with one. -/
def Written.assemble (w : Written) : Option CodeWord := if w.command.wf then some (encode w.command) else none

end Sys2Proof.Machine
end

