-- ==== Sys2Proof/Machine/Observe.lean ====
section
/-! DEFINITION. The observations of 00_scope R12: the pins, their waveform and the sampled bitstream, from the line writes
and the handle states (42_send R161 to R167). Nothing here is part of a step. -/

namespace Sys2Proof.Machine

/-- The `k`-th observation of a pin: its level, or a free one while it is unspecified (10_state R25). -/
def seen (pin : Lines (Option Bool)) (l : Line) (k : Nat) : Bool := (pin.get l).getD (Config.freePin l k)

def observePin (s : State) (l : Line) (k : Nat) : Bool := seen s.pin l k

/-! ## The pin waveform (R12 (b), R161), from the line writes and the handles -/

/-- The pins after one line write: R151's effect on them. -/
def drive (h : Lines Handle) (pin : Lines (Option Bool)) (e : Event) : Lines (Option Bool) :=
  if h.get e.1 = .ok then pin.set e.1 (some e.2) else pin

/-- The pins after each of the line writes, in order; `none` where the level is unspecified. -/
def waveform (h : Lines Handle) (pin : Lines (Option Bool)) : List Event → List (Lines (Option Bool))
  | [] => []
  | e :: es => drive h pin e :: waveform h (drive h pin e) es

/-- Both pins unspecified, as reset leaves them (10_state R35). -/
def unspecifiedPins : Lines (Option Bool) := { dat := none, clk := none }

/-- The pin waveform since reset: from `W` and the handle states (R12 (b)). -/
def State.waveform (s : State) : List (Lines (Option Bool)) := Machine.waveform s.h unspecifiedPins s.W

/-! ## The sampled bitstream (R12 (b), R163) -/

/-- The samples of line writes through working handles, the first of them the `k`-th since reset: at a clock write of 1
that finds the clock pin low, a rising edge, the level of the data pin. -/
def risingSamples (h : Lines Handle) (k : Nat) (pin : Lines (Option Bool)) : List Event → List Bool
  | [] => []
  | e :: es =>
    let later := risingSamples h (k + 1) (drive h pin e) es
    if e = (.clk, true) ∧ seen pin .clk k = false then seen pin .dat k :: later else later

/-- The sampled bits of line writes, from the handle states. Edges are clock writes of 1, so there is none before the first
of these, whatever the handles (R163); from then on, with a handle that is not `Ok`, nothing can be claimed of them (R167;
log 25). -/
def sampledBits (h : Lines Handle) (k : Nat) (pin : Lines (Option Bool)) (es : List Event) : List Bool :=
  if (h.get .dat = .ok ∧ h.get .clk = .ok) ∨ (.clk, true) ∉ es then risingSamples h k pin es
  else Config.freeSamples (k + es.length)

/-- The sampled bitstream since reset: from `W` and the handle states (R12 (b)). -/
def State.sampledBitstream (s : State) : List Bool := sampledBits s.h 0 unspecifiedPins s.W

/-- Both lines acquired, which R162, R163 and R166 ask for. -/
def bothOk : Lines Handle := { dat := .ok, clk := .ok }

/-! ## Edges of working lines, and the stream a buffer stands for -/

/-- How many falling clock edges line writes through working handles make that begin with the clock pin at `clk` (R166). -/
def fallingEdges (clk : Bool) : List Event → Nat
  | [] => 0
  | (.dat, _) :: es => fallingEdges clk es
  | (.clk, v) :: es => (if clk && !v then 1 else 0) + fallingEdges v es

/-- Every data write happens while the clock pin is low, both handles working (R162). -/
def dataWhileLow (clk : Bool) : List Event → Bool
  | [] => true
  | (.dat, _) :: es => !clk && dataWhileLow clk es
  | (.clk, v) :: es => dataWhileLow v es

/-- The level of the last write to line `l`, if there is one. -/
def lastWrite (l : Line) (es : List Event) : Option Bool :=
  ((es.filter fun e => e.1 == l).getLast?).map Prod.snd

/-- The 32 bits of a frame, most significant first (R163). -/
def frameBits (f : BitVec 32) : List Bool := (List.range 32).map fun n => f.getLsbD (31 - n)

/-- The 328-bit stream `0^36 ++ frame(0) ++ ... ++ frame(7) ++ 0^36` (30_encoding R90; R163). -/
def bitstream (p : Fin 8 → Pixel) : List Bool :=
  List.replicate latchPulses false ++ (List.finRange 8).flatMap (fun i => frameBits (p i).frame) ++
    List.replicate latchPulses false

/-- The 32 bytes of the frame segment (R164). -/
def frameBytes (p : Fin 8 → Pixel) : List Byte :=
  (List.finRange 8).flatMap fun i => [framePrefixByte ||| (p i).br.setWidth 8, (p i).b, (p i).g, (p i).r]

/-- The bits of a byte, most significant first. -/
def byteBits (y : Byte) : List Bool := [7, 6, 5, 4, 3, 2, 1, 0].map fun t => y.getLsbD t

end Sys2Proof.Machine
end

