-- ==== Sys2Proof/Safety.lean ====
section
/-! DEFINITION. What a safe run keeps: the invariants of 10_state R33 and R25, the shape of the trace, the log, and a run
with no fault recorded (60_exceptions R197). None of them speaks of `env`. -/

namespace Sys2Proof.Machine

/-- R33 (a) to (e). -/
structure State.Inv (s : State) : Prop where
  /-- (a) -/
  uninit : s.mode = .uninit →
    s.h = { dat := .none, clk := .none } ∧ s.busy = false ∧ s.W = [] ∧ ∀ i, s.slot i = none
  /-- (b): a slot with a value has every field in its range by its type (R23). -/
  ready : s.mode = .ready → (∀ l, s.h.get l = .ok ∨ s.h.get l = .failed) ∧ ∀ i, (s.slot i).isSome = true
  /-- (c) -/
  busyReady : s.busy = true → s.mode = .ready
  /-- (d) -/
  idlePos : s.busy = false → s.pos = 0
  /-- (e) -/
  traceLength : ∃ sends, s.W.length = 914 * sends + s.pos.val

/-- R25 and R151: a pin shows the last level written through an `Ok` handle, and is unspecified otherwise. -/
def State.PinInv (s : State) : Prop :=
  ∀ l, s.pin.get l = if s.h.get l = .ok then lastWrite l s.W else none

/-- R29, R61 (d): the trace is whole sends, each of the buffer it found, and then the send in progress up to `pos`, which
is a send of the buffer as it stands. -/
def State.TraceInv (s : State) : Prop :=
  ∃ (sent : List (Fin 8 → Pixel)) (p : Fin 8 → Pixel),
    s.W = sent.flatMap sendEvents ++ (sendEvents p).take s.pos.val ∧ (s.busy = true → s.Holds p)

/-- R30, R102: the log holds the failed lines, data first. -/
def State.LogInv (s : State) : Prop :=
  s.log = (if s.h.dat = .failed then [LogEvent.acqFail .dat] else []) ++
    (if s.h.clk = .failed then [LogEvent.acqFail .clk] else [])

/-- No fault recorded: `STATUS.FAULTS = 0` (R197). -/
def State.clean (s : State) : Prop :=
  s.faults = { illegal := false, notReady := false, already := false, invArg := false }

/-- Every sticky bit of `f` is set in `g` (R28). -/
def Faults.le (f g : Faults) : Prop :=
  (f.illegal = true → g.illegal = true) ∧ (f.notReady = true → g.notReady = true) ∧
    (f.already = true → g.already = true) ∧ (f.invArg = true → g.invArg = true)

/-- The machine goes on. -/
def goesOn (o : Out) : Prop := ∃ t, o = .next t

/-! ## What a statement compares a step with, each written out as a record -/

/-- `s` after its command completed with `c`: `LAST`, the sticky bits and the code returned, and nothing else
(60_exceptions R190, R196). -/
def completedWith (c : Code) (s : State) : State :=
  { s with
    last := c
    faults := s.faults.record c
    env := { s.env with replies := s.env.replies ++ [.code c] } }

/-- `s` after the serializer performed `e`: R151's write, then R158's advance or R159's end. -/
def afterLineWrite (e : Event) (s : State) : State :=
  let t : State :=
    { s with
      W := s.W ++ [e]
      pin := if s.h.get e.1 = .ok then s.pin.set e.1 (some e.2) else s.pin }
  if s.pos = 913 then completedWith .ok { t with busy := false, pos := 0 } else { t with pos := s.pos + 1 }

/-- The brightness code a command stores for the fraction `bf`: the encoded one, or a free value where there is none
(30_encoding R84). -/
def brightnessOf (bf : Frac) (s : State) : BitVec 5 := (enc5 s.env.cfg bf).getD (Config.freeBright s.env.draws)

/-- How many values have been drawn after it. -/
def drawsAfter (bf : Frac) (s : State) : Nat := s.env.draws + if (enc5 s.env.cfg bf).isNone then 1 else 0

/-- The fault a command raises, the checks in R198's order, by R213's table. -/
def faultOf (i : Instr) (s : State) : Option Code :=
  let index (idx : Int) : Option Code :=
    if s.mode = .uninit then some .notReady
    else if idx < 0 ∨ 7 < idx then some .invalidArgument
    else none
  let mode : Option Code := if s.mode = .uninit then some .notReady else none
  match i with
  | .setup => if s.mode = .ready then some .alreadySetup else none
  | .setPixel idx _ _ _ _ => index idx
  | .setPixelK idx _ _ _ => index idx
  | .setAll .. => mode
  | .setBright idx _ => index idx
  | .clearAll => mode
  | .send => mode
  | .reserved00 => some .illegalCommand
  | .reserved080F _ => some .illegalCommand
  | .reserved101F _ => some .illegalCommand
  | .reserved203F _ => some .illegalCommand
  | .reserved407F _ => some .illegalCommand
  | .reserved80FF _ => some .illegalCommand
  | .pixelFrame .. => none
  | .latch => none

/-- Instructions one after another, stopping at the first that does not go on. -/
def execSeq : List Instr → State → Out
  | [], s => .next s
  | i :: is, s =>
    match exec i s with
    | .next t => execSeq is t
    | .fault f => .fault f
    | .refused r => .refused r

/-- The words of R73: every field the command does not use is zero. -/
def canonical (cw : BitVec 200) : Prop :=
  match (opField cw).toNat with
  | 2 => True
  | 3 => cw.extractLsb' 0 64 = 0
  | 4 => cw.extractLsb' 160 32 = 0
  | 5 => cw.extractLsb' 64 96 = 0
  | _ => cw.extractLsb' 0 192 = 0

/-- Two words agree in the opcode and in every field R72 gives its command. -/
def agreeInUsedFields (x y : BitVec 200) : Prop :=
  opField x = opField y ∧
    match (opField x).toNat with
    | 2 => x = y
    | 3 => x.extractLsb' 64 128 = y.extractLsb' 64 128
    | 4 => x.extractLsb' 0 160 = y.extractLsb' 0 160
    | 5 => x.extractLsb' 160 32 = y.extractLsb' 160 32 ∧ x.extractLsb' 0 64 = y.extractLsb' 0 64
    | _ => True

end Sys2Proof.Machine
end

