-- ==== Sys2Proof/Certificates/Slice0/Obligations.lean ====
section
/-! DEFINITION. The statements for the provers. Each docstring names the rules of spec/ it formalises. -/

open Sys2Proof Sys2Proof.Machine

/-! ## Reset and the step -/

/-- R220: what reset leaves, whatever the inputs to come are, and that the block then does nothing until the host acts. -/
def Obligations.ResetLeavesTheSpecsState : Prop :=
  ∀ t : State, (t = State.reset ∨ ∃ s, t = takeReset s) →
    t.mode = .uninit ∧ (∀ i, t.slot i = none) ∧ (∀ l, t.h.get l = .none) ∧ (∀ l, t.pin.get l = none) ∧
      t.busy = false ∧ t.pos = 0 ∧ t.status = 0x0000#16 ∧ t.W = [] ∧ t.log = [] ∧
      (t.env.rst = [] → t.env.port = [] → step t = .next t)

/-- R207, R221: reset may be asserted at any time, and comes before everything else. The inputs to come stay (log 11). -/
def Obligations.AssertedResetComesFirst : Prop :=
  ∀ s : State, resetNow s = true →
    step s = .next { State.reset with env := { s.env with rst := s.env.rst.tail } }

/-- R10, R207: while no send is in progress and reset is not asserted, a step is the decoded head command at the state
whose inputs have moved on (log 2: the host's actions are data). -/
def Obligations.StepRunsTheHeadCommand : Prop :=
  ∀ (s : State) (cw : BitVec 200) (rest : List HostAction),
    resetNow s = false → s.busy = false → s.env.port = .command cw :: rest →
      step s = exec (decode cw) { s with env := { s.env with rst := s.env.rst.tail, port := rest } }

/-- R158, R152: while a send is in progress a step is the wire symbol at the position (log 9); an undefined slot stops it
(log 12). -/
def Obligations.StepRunsTheWireSymbol : Prop :=
  ∀ s : State, resetNow s = false → s.busy = true →
    (s.pos.val < 73 ∨ 841 ≤ s.pos.val →
      step s = exec .latch { s with env := { s.env with rst := s.env.rst.tail } }) ∧
    ∀ i : Fin 8, 73 + 96 * i.val ≤ s.pos.val → s.pos.val < 73 + 96 * (i.val + 1) →
      (∀ p, s.slot i = some p →
        step s = exec (.pixelFrame p.br p.b p.g p.r) { s with env := { s.env with rst := s.env.rst.tail } }) ∧
      (s.slot i = none → step s = .fault (.undefinedSlot i))

/-- R207, R210: a sample of `STATUS` gives its value and changes nothing; with no action the block idles
(log 18). -/
def Obligations.StepSamplesOrIdles : Prop :=
  ∀ s : State, resetNow s = false → s.busy = false →
    (s.env.port = [] → step s = .next { s with env := { s.env with rst := s.env.rst.tail } }) ∧
    ∀ rest, s.env.port = .sample :: rest →
      step s = .next { s with env := { s.env with
        rst := s.env.rst.tail, port := rest, replies := s.env.replies ++ [.status s.status] } }

/-- R28, R190: the bits of `STATUS`, the reserved ones reading 0, and the values of the codes. -/
def Obligations.StatusBitsAreTheirViews : Prop :=
  ∀ s : State,
    s.status.getLsbD 0 = decide (s.mode = .ready) ∧ s.status.getLsbD 1 = s.busy ∧
    s.status.getLsbD 2 = decide (s.h.get .dat = .failed) ∧ s.status.getLsbD 3 = decide (s.h.get .clk = .failed) ∧
    s.status.extractLsb' 4 3 = (match s.last with
      | .ok => 0#3 | .illegalCommand => 1#3 | .notReady => 2#3 | .alreadySetup => 3#3 | .invalidArgument => 4#3) ∧
    s.status.getLsbD 7 = false ∧ s.status.getLsbD 8 = s.faults.illegal ∧ s.status.getLsbD 9 = s.faults.notReady ∧
    s.status.getLsbD 10 = s.faults.already ∧ s.status.getLsbD 11 = s.faults.invArg ∧
    s.status.extractLsb' 12 4 = 0#4

/-! ## Encoding -/

/-- Words written out from R70 to R72, R74, R86 and R89 decode to what they stand for. -/
def Obligations.WrittenOutWordsDecode : Prop :=
  decode 0x01000000000000000000000000000000000000000000000000#200 = .setup ∧
  decode 0x020000000300000100FFFFFFFF000001FF3FE0000000000000#200 = .setPixel 3 256 (-1) 511 0x3FE0000000000000 ∧
  decode 0x03000000020000000A000000140000001E7FF8000000000000#200 = .setPixelK 2 10 20 30 ∧
  decode 0x04000000000000000000000000000000FF3FD0000000000000#200 = .setAll 0 0 255 0x3FD0000000000000 ∧
  decode 0x05FFFFFFFF0000000000000000000000003FE0000000000000#200 = .setBright (-1) 0x3FE0000000000000 ∧
  decode 0x06000000050000000000000000000000000000000000000000#200 = .clearAll ∧
  decode 0x07ABABABABABABABABABABABABABABABABABABABABABABABAB#200 = .send ∧
  decode 0x00000000000000000000000000000000000000000000000000#200 = .reserved00 ∧
  decode 0x08000000000000000000000000000000000000000000000000#200 = .reserved080F 0x08 ∧
  decode 0xFF000000000000000000000000000000000000000000000000#200 = .reserved80FF 0xFF ∧
  decodeWord (.frame 0xE7563412#32) = .ok (.pixelFrame 7 0x56 0x34 0x12) ∧
  decodeWord (.latch 0#36) = .ok .latch

/-- R71, R72, R74, R86, R89: every well-formed instruction comes back from its own word, every operand at every value. -/
def Obligations.DecodeOfEncodeIsTheInstruction : Prop :=
  ∀ i : Instr, i.wf = true → decodeWord (encode i) = .ok i

/-- R73: words that agree in the opcode and the used fields decode alike, and encoding what a word decodes to gives the
word back exactly where its unused fields are zero. -/
def Obligations.UnusedFieldsAreIgnored : Prop :=
  (∀ x y : BitVec 200, agreeInUsedFields x y → decode x = decode y) ∧
    ∀ cw : BitVec 200, encode (decode cw) = .command cw ↔ canonical cw

/-- R55: the 25 bytes of a command word, most significant first, decode as the word does. That any other number of bytes
is refused by name is the model's choice (log 16). -/
def Obligations.BytesCarryTheCommandWord : Prop :=
  (∀ cw : BitVec 200, (cwBytes cw).length = 25 ∧
    (∀ k, k < 25 → (cwBytes cw)[k]? = some (cw.extractLsb' (192 - 8 * k) 8)) ∧
    decodeBytes (cwBytes cw) = .ok (decode cw)) ∧
  ∀ bs : List Byte, bs.length ≠ 25 → decodeBytes bs = .error (.wrongLength bs.length)

/-- R191: a word with a reserved opcode completes with `IllegalCommand` in either mode, and no other word does. -/
def Obligations.ReservedOpcodesRaiseIllegalCommand : Prop :=
  ∀ (cw : BitVec 200) (s : State), s.busy = false →
    if (opField cw).toNat = 0 ∨ 8 ≤ (opField cw).toNat then
      exec (decode cw) s = .next (completedWith .illegalCommand s)
    else ∀ t, exec (decode cw) s = .next t → t.faults.illegal = s.faults.illegal

/-! ## What each instruction does -/

/-- R101 to R104: `SETUP` in `Uninit`, for every answer of the collaborator: the handles, the log, the buffer, the mode,
and nothing else; the listed answers are taken in order, data first (log 5). -/
def Obligations.SetupAcquiresFillsAndIsReady : Prop :=
  ∀ s : State, s.busy = false → s.mode = .uninit →
    ∃ (t : State) (d c : OpenResult) (acq : List OpenResult) (draws : Nat),
      exec .setup s = .next t ∧
      (∀ i, t.slot i = some { r := 255, g := 255, b := 255, br := 31 }) ∧
      t = { s with
        mode := .ready
        pixels := t.pixels
        h := { dat := if d = .ok then .ok else .failed, clk := if c = .ok then .ok else .failed }
        log := s.log ++ (if d = .failed then [.acqFail .dat] else []) ++ (if c = .failed then [.acqFail .clk] else [])
        last := .ok
        env := { s.env with acq := acq, draws := draws, replies := s.env.replies ++ [.code .ok] } } ∧
      (∀ x y rest, s.env.acq = x :: y :: rest → d = x ∧ c = y ∧ acq = rest ∧ draws = s.env.draws) ∧
      (∀ x, s.env.acq = [x] → d = x ∧ acq = [])

/-- R193: `SETUP` in `Ready` completes with `AlreadySetup`, code 3, and changes nothing else. -/
def Obligations.SecondSetupIsAlreadySetup : Prop :=
  ∀ s : State, s.busy = false → s.mode = .ready →
    exec .setup s = .next (completedWith .alreadySetup s) ∧ Code.alreadySetup.bits = 3#3

/-- R121: `SETPIXEL` with an index in range, and its frame. -/
def Obligations.SetPixelReplacesTheSlot : Prop :=
  ∀ (i : Fin 8) (r g b : Int) (bf : Frac) (s : State), s.busy = false → s.mode = .ready →
    ∃ t, exec (.setPixel i.val r g b bf) s = .next t ∧
      t.slot i = some { r := chan8 r, g := chan8 g, b := chan8 b, br := brightnessOf bf s } ∧
      (∀ j, j ≠ i → t.slot j = s.slot j) ∧
      t = { s with pixels := t.pixels, last := .ok, env := { s.env with
        draws := drawsAfter bf s, replies := s.env.replies ++ [.code .ok] } }

/-- R123: `SETPIXELK` with an index in range keeps the stored code, and its frame. The code 31 where no value is stored is
the model's choice for states that no run reaches (log 12), after the branch of R124. -/
def Obligations.SetPixelKKeepsTheBrightness : Prop :=
  ∀ (i : Fin 8) (r g b : Int) (s : State), s.busy = false → s.mode = .ready →
    ∃ t, exec (.setPixelK i.val r g b) s = .next t ∧
      (∀ p, s.slot i = some p → t.slot i = some { r := chan8 r, g := chan8 g, b := chan8 b, br := p.br }) ∧
      (s.slot i = none → t.slot i = some { r := chan8 r, g := chan8 g, b := chan8 b, br := 31 }) ∧
      (∀ j, j ≠ i → t.slot j = s.slot j) ∧
      t = { s with pixels := t.pixels, last := .ok, env := { s.env with replies := s.env.replies ++ [.code .ok] } }

/-- R125, R126: `SETALL` gives all eight slots one encoding, with at most one draw, and its frame. -/
def Obligations.SetAllReplacesEverySlot : Prop :=
  ∀ (r g b : Int) (bf : Frac) (s : State), s.busy = false → s.mode = .ready →
    ∃ t, exec (.setAll r g b bf) s = .next t ∧
      (∀ i, t.slot i = some { r := chan8 r, g := chan8 g, b := chan8 b, br := brightnessOf bf s }) ∧
      t = { s with pixels := t.pixels, last := .ok, env := { s.env with
        draws := drawsAfter bf s, replies := s.env.replies ++ [.code .ok] } }

/-- R127, R128: `SETBRIGHT` with an index in range on a slot that has a value writes its brightness field, and its
frame. -/
def Obligations.SetBrightWritesOnlyTheBrightness : Prop :=
  ∀ (i : Fin 8) (bf : Frac) (p : Pixel) (s : State), s.busy = false → s.mode = .ready → s.slot i = some p →
    ∃ t, exec (.setBright i.val bf) s = .next t ∧
      t.slot i = some { r := p.r, g := p.g, b := p.b, br := brightnessOf bf s } ∧
      (∀ j, j ≠ i → t.slot j = s.slot j) ∧
      t = { s with pixels := t.pixels, last := .ok, env := { s.env with
        draws := drawsAfter bf s, replies := s.env.replies ++ [.code .ok] } }

/-- R34, R128 (a), and log 12: `SETBRIGHT` of a slot that has no value stops the machine. -/
def Obligations.SetBrightOfAnUndefinedSlotStops : Prop :=
  ∀ (i : Fin 8) (bf : Frac) (s : State), s.busy = false → s.mode = .ready → s.slot i = none →
    exec (.setBright i.val bf) s = .fault (.undefinedSlot i)

/-- R129, R130: `CLEARALL` clears the colours of every slot and keeps each slot's brightness, and its frame. The code 31
where no value is stored is the model's choice for states that no run reaches (log 12), after the branch of R124. -/
def Obligations.ClearAllKeepsEachBrightness : Prop :=
  ∀ s : State, s.busy = false → s.mode = .ready →
    ∃ t, exec .clearAll s = .next t ∧
      (∀ i p, s.slot i = some p → t.slot i = some { r := 0, g := 0, b := 0, br := p.br }) ∧
      (∀ i, s.slot i = none → t.slot i = some { r := 0, g := 0, b := 0, br := 31 }) ∧
      t = { s with pixels := t.pixels, last := .ok, env := { s.env with replies := s.env.replies ++ [.code .ok] } }

/-- R74, R191: every reserved row completes with `IllegalCommand` in either mode, and changes nothing but `STATUS`. -/
def Obligations.ReservedRowsComplete : Prop :=
  ∀ (op : Byte) (s : State), s.busy = false →
    exec .reserved00 s = .next (completedWith .illegalCommand s) ∧
    exec (.reserved080F op) s = .next (completedWith .illegalCommand s) ∧
    exec (.reserved101F op) s = .next (completedWith .illegalCommand s) ∧
    exec (.reserved203F op) s = .next (completedWith .illegalCommand s) ∧
    exec (.reserved407F op) s = .next (completedWith .illegalCommand s) ∧
    exec (.reserved80FF op) s = .next (completedWith .illegalCommand s)

/-- R89, R153, R156: each step of a latch, by position: data low first, then high and low clock writes in turn. -/
def Obligations.LatchWritesByPosition : Prop :=
  ∀ s : State, s.busy = true →
    (s.pos.val = 0 ∨ s.pos.val = 841 → exec .latch s = .next (afterLineWrite (.dat, false) s)) ∧
    (∀ k, s.pos.val = k + 1 → k + 1 ≤ 72 → exec .latch s = .next (afterLineWrite (.clk, decide (k % 2 = 0)) s)) ∧
    (∀ k, s.pos.val = k + 842 → exec .latch s = .next (afterLineWrite (.clk, decide (k % 2 = 0)) s))

/-- R86, R154: each step of a pixel frame, by position: cell `n` is the frame's bit `31 - n`, then the pulse. -/
def Obligations.PixelFrameWritesByPosition : Prop :=
  ∀ (v : BitVec 5) (b g r : Byte) (s : State) (i : Fin 8) (n : Nat), s.busy = true → n < 32 →
    (s.pos.val = 73 + 96 * i.val + 3 * n →
      exec (.pixelFrame v b g r) s =
        .next (afterLineWrite (.dat, (0b111#3 ++ v ++ b ++ g ++ r).getLsbD (31 - n)) s)) ∧
    (s.pos.val = 73 + 96 * i.val + 3 * n + 1 →
      exec (.pixelFrame v b g r) s = .next (afterLineWrite (.clk, true) s)) ∧
    (s.pos.val = 73 + 96 * i.val + 3 * n + 2 →
      exec (.pixelFrame v b g r) s = .next (afterLineWrite (.clk, false) s))

/-- R158: `SEND` in `Ready` is admitted: `busy` 1, `pos` 0, and nothing else. Its own effect is the 914 steps that follow
(`SendRunsToTheWholeSend`). -/
def Obligations.SendIsAdmitted : Prop :=
  ∀ s : State, s.busy = false → s.mode = .ready → exec .send s = .next { s with busy := true, pos := 0 }

/-- R150, R158 to R160: `SEND` is admitted with `busy` 1 and `pos` 0, and the 914 steps from there are the one transition
of R150: the send's events appended, the pins as those events leave them, completion with `OK`, and nothing else changed.
Reset is not asserted during them. -/
def Obligations.SendRunsToTheWholeSend : Prop :=
  ∀ (s : State) (p : Fin 8 → Pixel), s.busy = false → s.mode = .ready → s.Holds p →
    (∀ b ∈ s.env.rst.take 914, b = false) →
    exec .send s = .next { s with busy := true, pos := 0 } ∧
    ∃ u, Host.Core.run Sys2Proof.core 914 { s with busy := true, pos := 0 } = .next u ∧
      u = sendWhole p { s with pos := 0, env := { s.env with rst := s.env.rst.drop 914 } } ∧
      (∀ l, u.pin.get l = if s.h.get l = .ok then some false else s.pin.get l) ∧
      u = { s with
        pos := 0
        pin := u.pin
        W := s.W ++ sendEvents p
        last := .ok
        env := { s.env with rst := s.env.rst.drop 914, replies := s.env.replies ++ [.code .ok] } }

/-- R88, R89: the 73 steps of a latch write `Latch()`, and the 96 steps of a slot write its four bytes. -/
def Obligations.WireSymbolsRunWhole : Prop :=
  ∀ s : State, s.busy = true → (∀ b ∈ s.env.rst.take 96, b = false) →
    (s.pos.val = 0 → ∃ u, Host.Core.run Sys2Proof.core 73 s = .next u ∧
      u = { s with pos := 73, pin := u.pin, W := s.W ++ latchEvents, env := { s.env with rst := s.env.rst.drop 73 } }) ∧
    (s.pos.val = 841 → ∃ u, Host.Core.run Sys2Proof.core 73 s = .next u ∧
      u = { s with busy := false, pos := 0, pin := u.pin, W := s.W ++ latchEvents, last := .ok, env := { s.env with
        rst := s.env.rst.drop 73, replies := s.env.replies ++ [.code .ok] } }) ∧
    ∀ (i : Fin 8) (p : Pixel), s.pos.val = 73 + 96 * i.val → s.slot i = some p →
      ∃ u, Host.Core.run Sys2Proof.core 96 s = .next u ∧
        u = { s with
          pos := Fin.ofNat 914 (s.pos.val + 96), pin := u.pin, W := s.W ++ pixelEvents p
          env := { s.env with rst := s.env.rst.drop 96 } }

/-- R151: a line write is recorded whether or not the handle works, and reaches the pin only when it does. -/
def Obligations.LineWriteIsAlwaysRecorded : Prop :=
  ∀ (l : Line) (v : Bool) (s : State),
    (lineWrite (l, v) s).W = s.W ++ [(l, v)] ∧
    (∀ m, (lineWrite (l, v) s).pin.get m = if m = l ∧ s.h.get l = .ok then some v else s.pin.get m) ∧
    lineWrite (l, v) s = { s with W := (lineWrite (l, v) s).W, pin := (lineWrite (l, v) s).pin }

/-! ## Faults -/

/-- R192: every legal command but `SETUP` completes with `NotReady`, code 2, in `Uninit`, and does nothing. -/
def Obligations.CommandsBeforeSetupAreNotReady : Prop :=
  ∀ (i : Instr) (s : State), i.kind = .command → i ≠ .setup → s.busy = false → s.mode = .uninit →
    exec i s = .next (completedWith .notReady s) ∧ Code.notReady.bits = 2#3

/-- R194: an index operand outside 0..7 in `Ready` completes with `InvalidArgument`, code 4, and writes no slot. -/
def Obligations.IndexOutsideTheStripIsInvalidArgument : Prop :=
  ∀ (idx r g b : Int) (bf : Frac) (s : State), s.busy = false → s.mode = .ready → (idx < 0 ∨ 7 < idx) →
    exec (.setPixel idx r g b bf) s = .next (completedWith .invalidArgument s) ∧
    exec (.setPixelK idx r g b) s = .next (completedWith .invalidArgument s) ∧
    exec (.setBright idx bf) s = .next (completedWith .invalidArgument s) ∧ Code.invalidArgument.bits = 4#3

/-- R198, R213: a command completes with the fault that the first failing check gives and with no other, or records none;
`faultOf` has the checks in R198's order. No draw is made by a command that faults. -/
def Obligations.FirstFailingCheckDecides : Prop :=
  ∀ (i : Instr) (s : State), i.kind ≠ .wireSymbol → s.busy = false →
    (∀ c, faultOf i s = some c → exec i s = .next (completedWith c s)) ∧
    (faultOf i s = none → ∀ t, exec i s = .next t → t.faults = s.faults)

/-- R196: what a fault does: `LAST`, its own sticky bit, the code returned, and nothing else. -/
def Obligations.FaultChangesOnlyStatus : Prop :=
  ∀ (i : Instr) (s : State) (c : Code), i.kind ≠ .wireSymbol → s.busy = false → faultOf i s = some c →
    ∃ t, exec i s = .next t ∧ t.last = c ∧
      t.faults.illegal = (s.faults.illegal || decide (c = .illegalCommand)) ∧
      t.faults.notReady = (s.faults.notReady || decide (c = .notReady)) ∧
      t.faults.already = (s.faults.already || decide (c = .alreadySetup)) ∧
      t.faults.invArg = (s.faults.invArg || decide (c = .invalidArgument)) ∧
      t.env = { s.env with replies := s.env.replies ++ [.code c] } ∧
      t = { s with last := t.last, faults := t.faults, env := t.env }

/-- R62, R207, and logs 9 and 10: what only a second writer could do stops by name. -/
def Obligations.SecondWriterIsRefused : Prop :=
  ∀ (i : Instr) (s : State),
    (i.kind ≠ .wireSymbol → s.busy = true → exec i s = .refused .commandWhileBusy) ∧
    (i.kind = .wireSymbol → s.busy = false → exec i s = .refused .lineWriteOutsideSend) ∧
    (73 ≤ s.pos.val → s.pos.val < 841 → exec .latch s = .refused .lineWriteOutsideSend) ∧
    ∀ v b g r, (s.pos.val < 73 ∨ 841 ≤ s.pos.val) →
      exec (.pixelFrame v b g r) s = .refused .lineWriteOutsideSend

/-! ## Values -/

/-- R80: the colour mask of an integer, of a command field, and of a number with a fractional part; R80's examples. -/
def Obligations.ChanIsTruncateThenMask : Prop :=
  (∀ v : Int, ((chan8 v).toNat : Int) = v % 256) ∧
  (∀ x : BitVec 32, chan8 (int32 x) = x.extractLsb' 0 8) ∧
  (∀ (num : Int) (den : Nat), 0 < den → ((chan8Frac num den).toNat : Int) = num.tdiv den % 256) ∧
  [255, 256, 257, 511, -1, -256, -257, 2147483647, -2147483648].map chan8 = [255, 0, 1, 255, 255, 0, 255, 255, 0] ∧
  chan8Frac 2559 10 = 255 ∧ chan8Frac (-5) 10 = 0 ∧ chan8Frac (-15) 10 = 255

/-- R81: the value of a bit pattern, as a rational number; `val` holds it in units of `2^(-1074)`. -/
def Obligations.ValIsTheBinary64Number : Prop :=
  ∀ bf : Frac,
    let sign : ℚ := if bf.getLsbD 63 then -1 else 1
    let e := (bf.extractLsb' 52 11).toNat
    let m := (bf.extractLsb' 0 52).toNat
    (e = 2047 → val bf = none) ∧
    (e = 0 → ∃ v, val bf = some v ∧ (v : ℚ) * 2 ^ (-1074 : ℤ) = sign * m * 2 ^ (-1074 : ℤ)) ∧
    (e ≠ 0 → e ≠ 2047 → ∃ v, val bf = some v ∧
      (v : ℚ) * 2 ^ (-1074 : ℤ) = sign * (2 ^ 52 + m) * 2 ^ ((e : ℤ) - 1075))

/-- R82: inside [0, 1] the code is the floor of the product, which lies in 0..31, whichever instance of `MUL31` it is. -/
def Obligations.InRangeCodeIsFloorOfProduct : Prop :=
  ∀ (c : Config) (bf : Frac) (v : Int), val bf = some v → 0 ≤ v → v ≤ unitsPerOne →
    ∃ (p : Int) (k : BitVec 5), mul31 c.mul31 v = some p ∧ 0 ≤ p ∧ p ≤ 31 * unitsPerOne ∧
      enc5 c bf = some k ∧ (k.toNat : Int) = p / unitsPerOne

/-- R83: the in-range table of the exact instance, and the selected values under both instances. -/
def Obligations.InRangeTableOfTheExactProduct : Prop :=
  (∀ (o : Enc5Oor) (bf : Frac) (v : Int), val bf = some v → 0 ≤ v → v ≤ unitsPerOne →
    (∀ k : Nat, k ≤ 30 → (enc5 { mul31 := .exact, oor := o } bf = some (BitVec.ofNat 5 k) ↔
      (k : Int) * unitsPerOne ≤ 31 * v ∧ 31 * v < ((k : Int) + 1) * unitsPerOne)) ∧
    (enc5 { mul31 := .exact, oor := o } bf = some 31 ↔ v = unitsPerOne)) ∧
  ∀ c : Config,
    enc5 c 0x0000000000000000 = some 0 ∧ enc5 c 0x8000000000000000 = some 0 ∧ enc5 c 0x3FA0000000000000 = some 0 ∧
    enc5 c 0x3FB999999999999A = some 3 ∧ enc5 c 0x3FC999999999999A = some 6 ∧ enc5 c 0x3FD0000000000000 = some 7 ∧
    enc5 c 0x3FE0000000000000 = some 15 ∧ enc5 c 0x3FE8000000000000 = some 23 ∧ enc5 c 0x3FEFF7CED916872B = some 30 ∧
    enc5 c 0x3FEFFFFFFFFFFFFF = some 30 ∧ enc5 c 0x3FF0000000000000 = some 31

/-- R84: outside [0, 1] the default truncates toward zero and wraps; a non-finite operand or product has no code (a draw,
which the commands' own statements make). -/
def Obligations.OutOfRangeCodeIsTruncatedAndWraps : Prop :=
  ∀ (c : Config) (bf : Frac),
    (val bf = none → enc5 c bf = none) ∧
    ∀ v : Int, val bf = some v →
      (mul31 c.mul31 v = none → enc5 c bf = none) ∧
      ∀ p : Int, (v < 0 ∨ unitsPerOne < v) → mul31 c.mul31 v = some p → c.oor = .truncMod32 →
        ∃ k : BitVec 5, enc5 c bf = some k ∧ (k.toNat : Int) = p.tdiv unitsPerOne % 32

/-- R85: inside [0, 1] the rounded product gives the exact product's code or the next one. -/
def Obligations.RoundedProductGivesTheSameOrNextCode : Prop :=
  ∀ (o : Enc5Oor) (bf : Frac) (v : Int), val bf = some v → 0 ≤ v → v ≤ unitsPerOne →
    ∃ a b : BitVec 5, enc5 { mul31 := .exact, oor := o } bf = some a ∧ enc5 { mul31 := .ieee, oor := o } bf = some b ∧
      (b = a ∨ b.toNat = a.toNat + 1)

/-- R86, R87, R93: the four bytes of a frame in the order sent, the brightness byte's value and range, and that no frame
is zero: its top three bits are 1. -/
def Obligations.FrameBytesInWireOrder : Prop :=
  ∀ p : Pixel,
    p.frame.extractLsb' 24 8 = 0xE0#8 ||| p.br.setWidth 8 ∧ p.frame.extractLsb' 16 8 = p.b ∧
    p.frame.extractLsb' 8 8 = p.g ∧ p.frame.extractLsb' 0 8 = p.r ∧
    (p.frame.extractLsb' 24 8).toNat = 224 + p.br.toNat ∧ p.frame.extractLsb' 29 3 = 0b111#3 ∧ p.frame ≠ 0#32

/-! ## What a send writes -/

/-- R153, R154, R156: the line write at each position. -/
def Obligations.EventAtEachPosition : Prop :=
  ∀ (p : Fin 8 → Pixel),
    ev 0 p = (.dat, false) ∧ ev 841 p = (.dat, false) ∧
    (∀ k, k < 72 → ev (k + 1) p = (.clk, decide (k % 2 = 0)) ∧ ev (k + 842) p = (.clk, decide (k % 2 = 0))) ∧
    ∀ (i : Fin 8) (n : Nat), n < 32 →
      ev (73 + 96 * i.val + 3 * n) p = (.dat, (p i).frame.getLsbD (31 - n)) ∧
      ev (73 + 96 * i.val + 3 * n + 1) p = (.clk, true) ∧ ev (73 + 96 * i.val + 3 * n + 2) p = (.clk, false)

/-- R155: the data bit of cell `n`, by byte. -/
def Obligations.DataBitOfEachCell : Prop :=
  ∀ (p : Fin 8 → Pixel) (i : Fin 8) (t : Nat), t ≤ 7 →
    ev (73 + 96 * i.val + 3 * (7 - t)) p = (.dat, if 5 ≤ t then true else (p i).br.getLsbD t) ∧
    ev (73 + 96 * i.val + 3 * (15 - t)) p = (.dat, (p i).b.getLsbD t) ∧
    ev (73 + 96 * i.val + 3 * (23 - t)) p = (.dat, (p i).g.getLsbD t) ∧
    ev (73 + 96 * i.val + 3 * (31 - t)) p = (.dat, (p i).r.getLsbD t)

/-- R150, R152: the pseudocode's writes are the writes by position, in order. -/
def Obligations.PseudocodeIsThePositions : Prop :=
  ∀ p : Fin 8 → Pixel, sendEvents p = (List.range 914).map fun pos => ev pos p

/-- R157: the counts of one send, and how its data writes and pulses follow each other. -/
def Obligations.CountsOfOneSend : Prop :=
  ∀ p : Fin 8 → Pixel,
    (sendEvents p).length = 914 ∧
    ((sendEvents p).filter fun e => e.1 == .clk) = (List.replicate 328 [(.clk, true), (.clk, false)]).flatten ∧
    ((sendEvents p).filter fun e => e.1 == .dat).length = 258 ∧
    ∃ bits : List Bool, bits.length = 256 ∧
      sendEvents p = (.dat, false) :: (List.replicate 36 pulse).flatten ++
        bits.flatMap (fun v => (.dat, v) :: pulse) ++ (.dat, false) :: (List.replicate 36 pulse).flatten

/-- R163, R90: with both handles `Ok`, a send that begins with the clock pin low presents the 328 bits, whatever the data
pin was, unspecified too. -/
def Obligations.SampledBitsAreTheStream : Prop :=
  ∀ (k : Nat) (dat : Option Bool) (p : Fin 8 → Pixel),
    sampledBits bothOk k { dat := dat, clk := some false } (sendEvents p) = bitstream p ∧ (bitstream p).length = 328

/-- R166: with both handles `Ok`, a first send that finds the clock high loses one rising edge of its start latch, and not
a falling one; the send after it is whole whatever the first found; and the sampled bitstream of a state whose trace is
whole sends is theirs, but for that one bit. -/
def Obligations.FirstSendMayLoseOneEdge : Prop :=
  ∀ (k : Nat) (pin : Lines (Option Bool)) (p q : Fin 8 → Pixel),
    (pin.clk = some true → sampledBits bothOk k pin (sendEvents p) = (bitstream p).tail ∧
      (sampledBits bothOk k pin (sendEvents p)).length = 327) ∧
    fallingEdges true (sendEvents p) = 328 ∧
    sampledBits bothOk k pin (sendEvents p ++ sendEvents q) =
      sampledBits bothOk k pin (sendEvents p) ++ bitstream q ∧
    ∀ (s : State) (sent : List (Fin 8 → Pixel)), s.h = bothOk → s.W = (p :: sent).flatMap sendEvents →
      s.sampledBitstream = bitstream p ++ sent.flatMap bitstream ∨
        s.sampledBitstream = (bitstream p).tail ++ sent.flatMap bitstream

/-- R162: but for the very first write, every data write of a run of sends finds the clock low, whatever the clock was. -/
def Obligations.DataChangesOnlyWhileClockLow : Prop :=
  ∀ (clk : Bool) (sent : List (Fin 8 → Pixel)), dataWhileLow clk (sent.flatMap sendEvents).tail = true

/-- R164: the frame segment is 32 bytes, each most significant bit first. -/
def Obligations.FrameSegmentIsThirtyTwoBytes : Prop :=
  ∀ p : Fin 8 → Pixel, (frameBytes p).length = 32 ∧
    bitstream p = List.replicate 36 false ++ (frameBytes p).flatMap byteBits ++ List.replicate 36 false

/-- R165: between sends the pin of a working line is low, once a send has been. -/
def Obligations.PinsAreLowBetweenSends : Prop :=
  ∀ (s : State) (l : Line), s.Inv → s.PinInv → s.TraceInv → s.busy = false → s.h.get l = .ok → s.W ≠ [] →
    s.pin.get l = some false

/-! ## Invariants and rules of the whole machine -/

/-- R33, R25, R30: the invariants hold after reset, whatever the inputs to come are. -/
def Obligations.InvariantsHoldAtReset : Prop :=
  ∀ e : Env, (State.reset.setEnv e).Inv ∧ (State.reset.setEnv e).PinInv ∧ (State.reset.setEnv e).TraceInv ∧
    (State.reset.setEnv e).LogInv

/-- R33: every step keeps the invariants (a) to (e). -/
def Obligations.StepKeepsTheInvariants : Prop := ∀ s t : State, s.Inv → step s = .next t → t.Inv

/-- R25, R151: every step keeps the pins at the last level written through a working handle. -/
def Obligations.StepKeepsPinsAtTheLastWrite : Prop :=
  ∀ s t : State, s.Inv → s.PinInv → step s = .next t → t.PinInv

/-- R29, R61 (d): every step keeps the trace whole sends and the send in progress. -/
def Obligations.StepKeepsTheTraceWholeSends : Prop :=
  ∀ s t : State, s.Inv → s.TraceInv → step s = .next t → t.TraceInv

/-- R30, R102: every step keeps the log the failed lines. -/
def Obligations.StepKeepsTheLogTheFailedLines : Prop :=
  ∀ s t : State, s.Inv → s.LogInv → step s = .next t → t.LogInv

/-- R195, R199: no state that meets the invariants stops the machine, whatever the host does next. -/
def Obligations.InvariantStatesGoOn : Prop := ∀ s : State, s.Inv → goesOn (step s)

/-- R33, R197: from reset, whatever the host and the collaborator do, a run never stops and its state meets the
invariants. -/
def Obligations.EveryRunGoesOn : Prop :=
  ∀ (e : Env) (k : Nat), ∃ t, Host.Core.run Sys2Proof.core k (State.reset.setEnv e) = .next t ∧
    t.Inv ∧ t.PinInv ∧ t.TraceInv ∧ t.LogInv

/-- R21, R24, R28, R221: but for reset, `Ready` stays, with its handles, every sticky bit stays, and only `SETUP` changes
the mode. -/
def Obligations.OnlyResetUndoesReadyAndFaults : Prop :=
  ∀ s t : State, resetNow s = false → step s = .next t →
    s.faults.le t.faults ∧ (s.mode = .ready → t.mode = .ready ∧ t.h = s.h) ∧
    (t.mode ≠ s.mode → ∃ cw rest, s.env.port = .command cw :: rest ∧ decode cw = .setup)

/-- R29, R52, R131: no step outside a send writes a line, reset apart. -/
def Obligations.OnlyASendWritesTheLines : Prop :=
  ∀ s t : State, resetNow s = false → s.busy = false → step s = .next t → t.W = s.W ∧ t.pin = s.pin

/-- R26, R27, R59: a step of a send performs one line write and moves on by one, or ends the send; the buffer, the mode,
the handles and the host's actions stay. -/
def Obligations.SendFreezesTheRest : Prop :=
  ∀ s t : State, resetNow s = false → s.busy = true → step s = .next t →
    (∃ e, t.W = s.W ++ [e]) ∧ t.pixels = s.pixels ∧ t.mode = s.mode ∧ t.h = s.h ∧ t.log = s.log ∧
    t.faults = s.faults ∧ t.env.port = s.env.port ∧ t.env.acq = s.env.acq ∧ t.env.draws = s.env.draws ∧
    (if s.pos.val = 913 then t.busy = false ∧ t.pos = 0 ∧ t.last = .ok
      else t.busy = true ∧ t.pos.val = s.pos.val + 1 ∧ t.last = s.last)

/-- R79, R126 (b): where the fraction has a code, `SETALL` leaves what the eight `SETPIXEL`s leave, but for the number of
codes returned. -/
def Obligations.SetAllIsEightSetPixels : Prop :=
  ∀ (r g b : Int) (bf : Frac) (c : BitVec 5) (s : State), s.busy = false → s.mode = .ready →
    enc5 s.env.cfg bf = some c →
    ∃ t u, exec (.setAll r g b bf) s = .next t ∧
      execSeq ((List.finRange 8).map fun i => .setPixel i.val r g b bf) s = .next u ∧
      u = { t with env := { t.env with replies := s.env.replies ++ List.replicate 8 (.code .ok) } }

/-- R79, R130 (d): `CLEARALL` leaves what the eight `SETPIXELK i, 0, 0, 0` leave, but for the number of codes returned. -/
def Obligations.ClearAllIsEightSetPixelKs : Prop :=
  ∀ s : State, s.busy = false → s.mode = .ready →
    ∃ t u, exec .clearAll s = .next t ∧
      execSeq ((List.finRange 8).map fun i => .setPixelK i.val 0 0 0) s = .next u ∧
      u = { t with env := { t.env with replies := s.env.replies ++ List.replicate 8 (.code .ok) } }

/-- R128 (c): `SETBRIGHT` and `SETPIXELK` of one slot, in either order, leave what `SETPIXEL` leaves, but for the number of
codes returned. -/
def Obligations.SetBrightAndSetPixelKAreSetPixel : Prop :=
  ∀ (i : Fin 8) (r g b : Int) (bf : Frac) (s : State), s.busy = false → s.mode = .ready →
    (s.slot i).isSome = true →
    ∃ t u, exec (.setPixel i.val r g b bf) s = .next t ∧
      execSeq [.setBright i.val bf, .setPixelK i.val r g b] s = .next u ∧
      execSeq [.setPixelK i.val r g b, .setBright i.val bf] s = .next u ∧
      u = { t with env := { t.env with replies := s.env.replies ++ [.code .ok, .code .ok] } }
end

