-- ==== Sys2Proof/Laws/Decode.lean ====
section
/-! SUPPORT. The fields of a built word are the fields it was built from, and the integer fields go both ways. -/

namespace Sys2Proof

variable (op : Byte) (idx r g b : Int) (bf : Frac)

/-- A slice of a concatenation that lies in its low part. -/
theorem slice_low {n m : Nat} (x : BitVec n) (y : BitVec m) (start len : Nat) (h : start + len ≤ m) :
    (x ++ y).extractLsb' start len = y.extractLsb' start len := by
  ext i hi
  have : start + i < m := by omega
  simp [BitVec.getLsbD_append, this]

/-- A slice of a concatenation that lies in its high part. -/
theorem slice_high {n m : Nat} (x : BitVec n) (y : BitVec m) (start len : Nat) (h : m ≤ start) :
    (x ++ y).extractLsb' start len = x.extractLsb' (start - m) len := by
  ext i hi
  have h1 : ¬ start + i < m := by omega
  have h2 : start + i - m = start - m + i := by omega
  simp [BitVec.getLsbD_append, h1, h2]

theorem slice_all {n : Nat} (x : BitVec n) : x.extractLsb' 0 n = x := by
  ext i hi
  simp

@[simp] theorem opField_commandWord : opField (commandWord op idx r g b bf) = op :=
  (slice_high _ bf 192 8 (by decide)).trans <|
    (slice_high _ (field32 b) 128 8 (by decide)).trans <|
    (slice_high _ (field32 g) 96 8 (by decide)).trans <|
    (slice_high _ (field32 r) 64 8 (by decide)).trans <|
    (slice_high _ (field32 idx) 32 8 (by decide)).trans <|
    slice_all op

@[simp] theorem bfField_commandWord : bfField (commandWord op idx r g b bf) = bf :=
  (slice_low _ bf 0 64 (by decide)).trans (slice_all _)

@[simp] theorem idxField_commandWord : idxField (commandWord op idx r g b bf) = int32 (field32 idx) :=
  congrArg int32 <|
    (slice_high _ bf 160 32 (by decide)).trans <|
    (slice_high _ (field32 b) 96 32 (by decide)).trans <|
    (slice_high _ (field32 g) 64 32 (by decide)).trans <|
    (slice_high _ (field32 r) 32 32 (by decide)).trans <|
    (slice_low _ (field32 idx) 0 32 (by decide)).trans (slice_all _)

@[simp] theorem rField_commandWord : rField (commandWord op idx r g b bf) = int32 (field32 r) :=
  congrArg int32 <|
    (slice_high _ bf 128 32 (by decide)).trans <|
    (slice_high _ (field32 b) 64 32 (by decide)).trans <|
    (slice_high _ (field32 g) 32 32 (by decide)).trans <|
    (slice_low _ (field32 r) 0 32 (by decide)).trans (slice_all _)

@[simp] theorem gField_commandWord : gField (commandWord op idx r g b bf) = int32 (field32 g) :=
  congrArg int32 <|
    (slice_high _ bf 96 32 (by decide)).trans <|
    (slice_high _ (field32 b) 32 32 (by decide)).trans <|
    (slice_low _ (field32 g) 0 32 (by decide)).trans (slice_all _)

@[simp] theorem bField_commandWord : bField (commandWord op idx r g b bf) = int32 (field32 b) :=
  congrArg int32 <|
    (slice_high _ bf 64 32 (by decide)).trans <|
    (slice_low _ (field32 b) 0 32 (by decide)).trans (slice_all _)

/-- An integer that fits a signed 32-bit field is read back (R71). -/
theorem int32_field32 {z : Int} (h : fitsS32 z = true) : int32 (field32 z) = z := by
  simp only [fitsS32, Bool.and_eq_true, decide_eq_true_eq] at h
  unfold int32 field32
  rw [BitVec.toInt_ofInt]
  exact Int.bmod_eq_of_le (by omega) (by omega)

@[simp] theorem field32_int32 (v : BitVec 32) : field32 (int32 v) = v := by
  simp [field32, int32]

theorem fitsS32_int32 (v : BitVec 32) : fitsS32 (int32 v) = true := by
  have h1 : -2147483648 ≤ v.toInt := BitVec.le_toInt v
  have h2 : v.toInt < 2147483648 := BitVec.toInt_lt
  rw [fitsS32, Bool.and_eq_true, decide_eq_true_eq, decide_eq_true_eq]
  exact ⟨h1, Int.le_of_lt_add_one h2⟩

/-- The frame's fields. -/
theorem frameWord_fields (v : BitVec 5) (b g r : Byte) :
    (frameWord v b g r).extractLsb' 29 3 = 0b111#3 ∧ (frameWord v b g r).extractLsb' 24 5 = v ∧
      (frameWord v b g r).extractLsb' 16 8 = b ∧ (frameWord v b g r).extractLsb' 8 8 = g ∧
      (frameWord v b g r).extractLsb' 0 8 = r :=
  ⟨(slice_high _ r 29 3 (by decide)).trans <| (slice_high _ g 21 3 (by decide)).trans <|
      (slice_high _ b 13 3 (by decide)).trans <| (slice_high _ v 5 3 (by decide)).trans (slice_all _),
    (slice_high _ r 24 5 (by decide)).trans <| (slice_high _ g 16 5 (by decide)).trans <|
      (slice_high _ b 8 5 (by decide)).trans <| (slice_low _ v 0 5 (by decide)).trans (slice_all _),
    (slice_high _ r 16 8 (by decide)).trans <| (slice_high _ g 8 8 (by decide)).trans <|
      (slice_low _ b 0 8 (by decide)).trans (slice_all _),
    (slice_high _ r 8 8 (by decide)).trans <| (slice_low _ g 0 8 (by decide)).trans (slice_all _),
    (slice_low _ r 0 8 (by decide)).trans (slice_all _)⟩

/-- Two neighbouring slices are one slice. -/
theorem slice_join {w : Nat} (x : BitVec w) (s m n : Nat) :
    x.extractLsb' (s + n) m ++ x.extractLsb' s n = x.extractLsb' s (m + n) := by
  ext i hi
  simp only [BitVec.getElem_append, BitVec.getElem_extractLsb']
  split
  · rfl
  · congr 1
    omega

/-- A command word is built from its fields. -/
theorem commandWord_fields (cw : BitVec 200) :
    commandWord (opField cw) (idxField cw) (rField cw) (gField cw) (bField cw) (bfField cw) = cw := by
  unfold commandWord idxField rField gField bField
  simp only [field32_int32]
  exact (congrArg (fun x => (x ++ _ ++ _ ++ _ ++ bfField cw : BitVec 200)) (slice_join cw 160 8 32)).trans <|
    (congrArg (fun x => (x ++ _ ++ _ ++ bfField cw : BitVec 200)) (slice_join cw 128 40 32)).trans <|
    (congrArg (fun x => (x ++ _ ++ bfField cw : BitVec 200)) (slice_join cw 96 72 32)).trans <|
    (congrArg (fun x => (x ++ bfField cw : BitVec 200)) (slice_join cw 64 104 32)).trans <|
    (slice_join cw 0 136 64).trans (slice_all cw)

end Sys2Proof
end

