-- ==== Sys2Proof/Laws/State.lean ====
section
/-! SUPPORT. One lemma per field per setter, by rfl, and what a slot and a line read after a write. -/

namespace Sys2Proof.Machine

variable (s : State)

/-! ## A pair of lines -/

@[simp] theorem Lines.get_set_self {α : Type} (x : Lines α) (l : Line) (a : α) : (x.set l a).get l = a := by
  cases l <;> rfl

theorem Lines.get_set_ne {α : Type} (x : Lines α) {l m : Line} (a : α) (h : m ≠ l) : (x.set l a).get m = x.get m := by
  cases l <;> cases m <;> first | rfl | exact absurd rfl h

theorem Lines.ext_get {α : Type} {x y : Lines α} (h : ∀ l, x.get l = y.get l) : x = y := by
  cases x
  cases y
  exact Lines.mk.injEq .. ▸ ⟨h .dat, h .clk⟩

/-! ## Fields -/


@[simp] theorem setMode_mode (m : Mode) : (s.setMode m).mode = m := rfl
@[simp] theorem setMode_pixels (m : Mode) : (s.setMode m).pixels = s.pixels := rfl
@[simp] theorem setMode_h (m : Mode) : (s.setMode m).h = s.h := rfl
@[simp] theorem setMode_pin (m : Mode) : (s.setMode m).pin = s.pin := rfl
@[simp] theorem setMode_busy (m : Mode) : (s.setMode m).busy = s.busy := rfl
@[simp] theorem setMode_pos (m : Mode) : (s.setMode m).pos = s.pos := rfl
@[simp] theorem setMode_last (m : Mode) : (s.setMode m).last = s.last := rfl
@[simp] theorem setMode_faults (m : Mode) : (s.setMode m).faults = s.faults := rfl
@[simp] theorem setMode_W (m : Mode) : (s.setMode m).W = s.W := rfl
@[simp] theorem setMode_log (m : Mode) : (s.setMode m).log = s.log := rfl
@[simp] theorem setMode_env (m : Mode) : (s.setMode m).env = s.env := rfl

@[simp] theorem setSlot_mode (i : Fin 8) (p : Pixel) : (s.setSlot i p).mode = s.mode := rfl
@[simp] theorem setSlot_pixels (i : Fin 8) (p : Pixel) : (s.setSlot i p).pixels = s.pixels.set i (some p) := rfl
@[simp] theorem setSlot_h (i : Fin 8) (p : Pixel) : (s.setSlot i p).h = s.h := rfl
@[simp] theorem setSlot_pin (i : Fin 8) (p : Pixel) : (s.setSlot i p).pin = s.pin := rfl
@[simp] theorem setSlot_busy (i : Fin 8) (p : Pixel) : (s.setSlot i p).busy = s.busy := rfl
@[simp] theorem setSlot_pos (i : Fin 8) (p : Pixel) : (s.setSlot i p).pos = s.pos := rfl
@[simp] theorem setSlot_last (i : Fin 8) (p : Pixel) : (s.setSlot i p).last = s.last := rfl
@[simp] theorem setSlot_faults (i : Fin 8) (p : Pixel) : (s.setSlot i p).faults = s.faults := rfl
@[simp] theorem setSlot_W (i : Fin 8) (p : Pixel) : (s.setSlot i p).W = s.W := rfl
@[simp] theorem setSlot_log (i : Fin 8) (p : Pixel) : (s.setSlot i p).log = s.log := rfl
@[simp] theorem setSlot_env (i : Fin 8) (p : Pixel) : (s.setSlot i p).env = s.env := rfl

@[simp] theorem mapSlots_mode (f : Option Pixel → Pixel) : (s.mapSlots f).mode = s.mode := rfl
@[simp] theorem mapSlots_h (f : Option Pixel → Pixel) : (s.mapSlots f).h = s.h := rfl
@[simp] theorem mapSlots_pin (f : Option Pixel → Pixel) : (s.mapSlots f).pin = s.pin := rfl
@[simp] theorem mapSlots_busy (f : Option Pixel → Pixel) : (s.mapSlots f).busy = s.busy := rfl
@[simp] theorem mapSlots_pos (f : Option Pixel → Pixel) : (s.mapSlots f).pos = s.pos := rfl
@[simp] theorem mapSlots_last (f : Option Pixel → Pixel) : (s.mapSlots f).last = s.last := rfl
@[simp] theorem mapSlots_faults (f : Option Pixel → Pixel) : (s.mapSlots f).faults = s.faults := rfl
@[simp] theorem mapSlots_W (f : Option Pixel → Pixel) : (s.mapSlots f).W = s.W := rfl
@[simp] theorem mapSlots_log (f : Option Pixel → Pixel) : (s.mapSlots f).log = s.log := rfl
@[simp] theorem mapSlots_env (f : Option Pixel → Pixel) : (s.mapSlots f).env = s.env := rfl

@[simp] theorem setHandle_mode (l : Line) (x : Handle) : (s.setHandle l x).mode = s.mode := rfl
@[simp] theorem setHandle_pixels (l : Line) (x : Handle) : (s.setHandle l x).pixels = s.pixels := rfl
@[simp] theorem setHandle_h (l : Line) (x : Handle) : (s.setHandle l x).h = s.h.set l x := rfl
@[simp] theorem setHandle_pin (l : Line) (x : Handle) : (s.setHandle l x).pin = s.pin := rfl
@[simp] theorem setHandle_busy (l : Line) (x : Handle) : (s.setHandle l x).busy = s.busy := rfl
@[simp] theorem setHandle_pos (l : Line) (x : Handle) : (s.setHandle l x).pos = s.pos := rfl
@[simp] theorem setHandle_last (l : Line) (x : Handle) : (s.setHandle l x).last = s.last := rfl
@[simp] theorem setHandle_faults (l : Line) (x : Handle) : (s.setHandle l x).faults = s.faults := rfl
@[simp] theorem setHandle_W (l : Line) (x : Handle) : (s.setHandle l x).W = s.W := rfl
@[simp] theorem setHandle_log (l : Line) (x : Handle) : (s.setHandle l x).log = s.log := rfl
@[simp] theorem setHandle_env (l : Line) (x : Handle) : (s.setHandle l x).env = s.env := rfl

@[simp] theorem setPin_mode (l : Line) (v : Bool) : (s.setPin l v).mode = s.mode := rfl
@[simp] theorem setPin_pixels (l : Line) (v : Bool) : (s.setPin l v).pixels = s.pixels := rfl
@[simp] theorem setPin_h (l : Line) (v : Bool) : (s.setPin l v).h = s.h := rfl
@[simp] theorem setPin_pin (l : Line) (v : Bool) : (s.setPin l v).pin = s.pin.set l (some v) := rfl
@[simp] theorem setPin_busy (l : Line) (v : Bool) : (s.setPin l v).busy = s.busy := rfl
@[simp] theorem setPin_pos (l : Line) (v : Bool) : (s.setPin l v).pos = s.pos := rfl
@[simp] theorem setPin_last (l : Line) (v : Bool) : (s.setPin l v).last = s.last := rfl
@[simp] theorem setPin_faults (l : Line) (v : Bool) : (s.setPin l v).faults = s.faults := rfl
@[simp] theorem setPin_W (l : Line) (v : Bool) : (s.setPin l v).W = s.W := rfl
@[simp] theorem setPin_log (l : Line) (v : Bool) : (s.setPin l v).log = s.log := rfl
@[simp] theorem setPin_env (l : Line) (v : Bool) : (s.setPin l v).env = s.env := rfl

@[simp] theorem setSerializer_mode (b : Bool) (p : Fin 914) : (s.setSerializer b p).mode = s.mode := rfl
@[simp] theorem setSerializer_pixels (b : Bool) (p : Fin 914) : (s.setSerializer b p).pixels = s.pixels := rfl
@[simp] theorem setSerializer_h (b : Bool) (p : Fin 914) : (s.setSerializer b p).h = s.h := rfl
@[simp] theorem setSerializer_pin (b : Bool) (p : Fin 914) : (s.setSerializer b p).pin = s.pin := rfl
@[simp] theorem setSerializer_busy (b : Bool) (p : Fin 914) : (s.setSerializer b p).busy = b := rfl
@[simp] theorem setSerializer_pos (b : Bool) (p : Fin 914) : (s.setSerializer b p).pos = p := rfl
@[simp] theorem setSerializer_last (b : Bool) (p : Fin 914) : (s.setSerializer b p).last = s.last := rfl
@[simp] theorem setSerializer_faults (b : Bool) (p : Fin 914) : (s.setSerializer b p).faults = s.faults := rfl
@[simp] theorem setSerializer_W (b : Bool) (p : Fin 914) : (s.setSerializer b p).W = s.W := rfl
@[simp] theorem setSerializer_log (b : Bool) (p : Fin 914) : (s.setSerializer b p).log = s.log := rfl
@[simp] theorem setSerializer_env (b : Bool) (p : Fin 914) : (s.setSerializer b p).env = s.env := rfl

@[simp] theorem setStatus_mode (c : Code) (f : Faults) : (s.setStatus c f).mode = s.mode := rfl
@[simp] theorem setStatus_pixels (c : Code) (f : Faults) : (s.setStatus c f).pixels = s.pixels := rfl
@[simp] theorem setStatus_h (c : Code) (f : Faults) : (s.setStatus c f).h = s.h := rfl
@[simp] theorem setStatus_pin (c : Code) (f : Faults) : (s.setStatus c f).pin = s.pin := rfl
@[simp] theorem setStatus_busy (c : Code) (f : Faults) : (s.setStatus c f).busy = s.busy := rfl
@[simp] theorem setStatus_pos (c : Code) (f : Faults) : (s.setStatus c f).pos = s.pos := rfl
@[simp] theorem setStatus_last (c : Code) (f : Faults) : (s.setStatus c f).last = c := rfl
@[simp] theorem setStatus_faults (c : Code) (f : Faults) : (s.setStatus c f).faults = f := rfl
@[simp] theorem setStatus_W (c : Code) (f : Faults) : (s.setStatus c f).W = s.W := rfl
@[simp] theorem setStatus_log (c : Code) (f : Faults) : (s.setStatus c f).log = s.log := rfl
@[simp] theorem setStatus_env (c : Code) (f : Faults) : (s.setStatus c f).env = s.env := rfl

@[simp] theorem addEvent_mode (e : Event) : (s.addEvent e).mode = s.mode := rfl
@[simp] theorem addEvent_pixels (e : Event) : (s.addEvent e).pixels = s.pixels := rfl
@[simp] theorem addEvent_h (e : Event) : (s.addEvent e).h = s.h := rfl
@[simp] theorem addEvent_pin (e : Event) : (s.addEvent e).pin = s.pin := rfl
@[simp] theorem addEvent_busy (e : Event) : (s.addEvent e).busy = s.busy := rfl
@[simp] theorem addEvent_pos (e : Event) : (s.addEvent e).pos = s.pos := rfl
@[simp] theorem addEvent_last (e : Event) : (s.addEvent e).last = s.last := rfl
@[simp] theorem addEvent_faults (e : Event) : (s.addEvent e).faults = s.faults := rfl
@[simp] theorem addEvent_W (e : Event) : (s.addEvent e).W = s.W ++ [e] := rfl
@[simp] theorem addEvent_log (e : Event) : (s.addEvent e).log = s.log := rfl
@[simp] theorem addEvent_env (e : Event) : (s.addEvent e).env = s.env := rfl

@[simp] theorem addLog_mode (e : LogEvent) : (s.addLog e).mode = s.mode := rfl
@[simp] theorem addLog_pixels (e : LogEvent) : (s.addLog e).pixels = s.pixels := rfl
@[simp] theorem addLog_h (e : LogEvent) : (s.addLog e).h = s.h := rfl
@[simp] theorem addLog_pin (e : LogEvent) : (s.addLog e).pin = s.pin := rfl
@[simp] theorem addLog_busy (e : LogEvent) : (s.addLog e).busy = s.busy := rfl
@[simp] theorem addLog_pos (e : LogEvent) : (s.addLog e).pos = s.pos := rfl
@[simp] theorem addLog_last (e : LogEvent) : (s.addLog e).last = s.last := rfl
@[simp] theorem addLog_faults (e : LogEvent) : (s.addLog e).faults = s.faults := rfl
@[simp] theorem addLog_W (e : LogEvent) : (s.addLog e).W = s.W := rfl
@[simp] theorem addLog_log (e : LogEvent) : (s.addLog e).log = s.log ++ [e] := rfl
@[simp] theorem addLog_env (e : LogEvent) : (s.addLog e).env = s.env := rfl

@[simp] theorem setEnv_mode (e : Env) : (s.setEnv e).mode = s.mode := rfl
@[simp] theorem setEnv_pixels (e : Env) : (s.setEnv e).pixels = s.pixels := rfl
@[simp] theorem setEnv_h (e : Env) : (s.setEnv e).h = s.h := rfl
@[simp] theorem setEnv_pin (e : Env) : (s.setEnv e).pin = s.pin := rfl
@[simp] theorem setEnv_busy (e : Env) : (s.setEnv e).busy = s.busy := rfl
@[simp] theorem setEnv_pos (e : Env) : (s.setEnv e).pos = s.pos := rfl
@[simp] theorem setEnv_last (e : Env) : (s.setEnv e).last = s.last := rfl
@[simp] theorem setEnv_faults (e : Env) : (s.setEnv e).faults = s.faults := rfl
@[simp] theorem setEnv_W (e : Env) : (s.setEnv e).W = s.W := rfl
@[simp] theorem setEnv_log (e : Env) : (s.setEnv e).log = s.log := rfl
@[simp] theorem setEnv_env (e : Env) : (s.setEnv e).env = e := rfl

/-! ## Slots -/

@[simp] theorem slot_setSlot_self (i : Fin 8) (p : Pixel) : (s.setSlot i p).slot i = some p := by
  simp [State.slot, State.setSlot]

theorem slot_setSlot_ne {i j : Fin 8} (p : Pixel) (h : j ≠ i) : (s.setSlot i p).slot j = s.slot j := by
  have : (i : Nat) ≠ j := fun e => h (Fin.ext e.symm)
  simp [State.slot, State.setSlot, this]

theorem slot_setSlot (i j : Fin 8) (p : Pixel) :
    (s.setSlot i p).slot j = if j = i then some p else s.slot j := by
  split
  · next h => subst h; simp
  · next h => exact slot_setSlot_ne s p h

@[simp] theorem slot_mapSlots (f : Option Pixel → Pixel) (i : Fin 8) :
    (s.mapSlots f).slot i = some (f (s.slot i)) := by
  revert i
  intro i
  match i with
  | 0 => rfl
  | 1 => rfl
  | 2 => rfl
  | 3 => rfl
  | 4 => rfl
  | 5 => rfl
  | 6 => rfl
  | 7 => rfl

/-- Two states' buffers are one when every slot reads the same. -/
theorem pixels_ext {s t : State} (h : ∀ i, s.slot i = t.slot i) : s.pixels = t.pixels := by
  apply Vector.ext
  intro i hi
  exact h ⟨i, hi⟩

@[simp] theorem slot_setMode (m : Mode) (i : Fin 8) : (s.setMode m).slot i = s.slot i := rfl
@[simp] theorem slot_setHandle (l : Line) (x : Handle) (i : Fin 8) : (s.setHandle l x).slot i = s.slot i := rfl
@[simp] theorem slot_setPin (l : Line) (v : Bool) (i : Fin 8) : (s.setPin l v).slot i = s.slot i := rfl
@[simp] theorem slot_setSerializer (b : Bool) (p : Fin 914) (i : Fin 8) : (s.setSerializer b p).slot i = s.slot i := rfl
@[simp] theorem slot_setStatus (c : Code) (f : Faults) (i : Fin 8) : (s.setStatus c f).slot i = s.slot i := rfl
@[simp] theorem slot_addEvent (e : Event) (i : Fin 8) : (s.addEvent e).slot i = s.slot i := rfl
@[simp] theorem slot_addLog (e : LogEvent) (i : Fin 8) : (s.addLog e).slot i = s.slot i := rfl
@[simp] theorem slot_setEnv (e : Env) (i : Fin 8) : (s.setEnv e).slot i = s.slot i := rfl

end Sys2Proof.Machine
end

