-- ==== Sys2Proof/Laws/Ops.lean ====
section
/-! SUPPORT. One lemma per shared operation, which says all that it can do; later proofs cite these and unfold nothing. -/

namespace Sys2Proof.Machine

variable (s : State)

/-! ## Completing a command, and a fault -/


@[simp] theorem complete_mode (c : Code) : (complete c s).mode = s.mode := rfl
@[simp] theorem complete_pixels (c : Code) : (complete c s).pixels = s.pixels := rfl
@[simp] theorem complete_h (c : Code) : (complete c s).h = s.h := rfl
@[simp] theorem complete_pin (c : Code) : (complete c s).pin = s.pin := rfl
@[simp] theorem complete_busy (c : Code) : (complete c s).busy = s.busy := rfl
@[simp] theorem complete_pos (c : Code) : (complete c s).pos = s.pos := rfl
@[simp] theorem complete_last (c : Code) : (complete c s).last = c := rfl
@[simp] theorem complete_faults (c : Code) : (complete c s).faults = s.faults.record c := rfl
@[simp] theorem complete_W (c : Code) : (complete c s).W = s.W := rfl
@[simp] theorem complete_log (c : Code) : (complete c s).log = s.log := rfl
@[simp] theorem complete_env (c : Code) : (complete c s).env = { s.env with replies := s.env.replies ++ [.code c] } := rfl
@[simp] theorem slot_complete (c : Code) (i : Fin 8) : (complete c s).slot i = s.slot i := rfl

/-- Taking a fault is completing the command with the fault's code (R196). -/
@[simp] theorem raise_eq (c : Code) : raise c s = complete c s := rfl

@[simp] theorem record_ok (f : Faults) : f.record .ok = f := rfl

/-! ## Reset -/


@[simp] theorem takeReset_mode : (takeReset s).mode = State.reset.mode := rfl
@[simp] theorem takeReset_pixels : (takeReset s).pixels = State.reset.pixels := rfl
@[simp] theorem takeReset_h : (takeReset s).h = State.reset.h := rfl
@[simp] theorem takeReset_pin : (takeReset s).pin = State.reset.pin := rfl
@[simp] theorem takeReset_busy : (takeReset s).busy = State.reset.busy := rfl
@[simp] theorem takeReset_pos : (takeReset s).pos = State.reset.pos := rfl
@[simp] theorem takeReset_last : (takeReset s).last = State.reset.last := rfl
@[simp] theorem takeReset_faults : (takeReset s).faults = State.reset.faults := rfl
@[simp] theorem takeReset_W : (takeReset s).W = State.reset.W := rfl
@[simp] theorem takeReset_log : (takeReset s).log = State.reset.log := rfl
@[simp] theorem takeReset_env : (takeReset s).env = s.env := rfl

theorem slot_reset (i : Fin 8) : State.reset.slot i = none := by
  revert i
  decide

@[simp] theorem slot_takeReset (i : Fin 8) : (takeReset s).slot i = none := slot_reset i

/-! ## Line writes -/


@[simp] theorem lineWrite_mode (e : Event) : (lineWrite e s).mode = s.mode := by
  unfold lineWrite; split <;> rfl
@[simp] theorem lineWrite_pixels (e : Event) : (lineWrite e s).pixels = s.pixels := by
  unfold lineWrite; split <;> rfl
@[simp] theorem lineWrite_h (e : Event) : (lineWrite e s).h = s.h := by
  unfold lineWrite; split <;> rfl
@[simp] theorem lineWrite_busy (e : Event) : (lineWrite e s).busy = s.busy := by
  unfold lineWrite; split <;> rfl
@[simp] theorem lineWrite_pos (e : Event) : (lineWrite e s).pos = s.pos := by
  unfold lineWrite; split <;> rfl
@[simp] theorem lineWrite_last (e : Event) : (lineWrite e s).last = s.last := by
  unfold lineWrite; split <;> rfl
@[simp] theorem lineWrite_faults (e : Event) : (lineWrite e s).faults = s.faults := by
  unfold lineWrite; split <;> rfl
@[simp] theorem lineWrite_W (e : Event) : (lineWrite e s).W = s.W ++ [e] := by
  unfold lineWrite; split <;> rfl
@[simp] theorem lineWrite_log (e : Event) : (lineWrite e s).log = s.log := by
  unfold lineWrite; split <;> rfl
@[simp] theorem lineWrite_env (e : Event) : (lineWrite e s).env = s.env := by
  unfold lineWrite; split <;> rfl
@[simp] theorem slot_lineWrite (e : Event) (i : Fin 8) : (lineWrite e s).slot i = s.slot i := by
  simp [State.slot]

/-- R151: the pin takes the level exactly when the handle is `Ok`. -/
theorem lineWrite_pin (e : Event) :
    (lineWrite e s).pin = if s.h.get e.1 = .ok then s.pin.set e.1 (some e.2) else s.pin := by
  unfold lineWrite
  split <;> simp_all

theorem lineWrites_nil : lineWrites [] s = s := rfl

theorem lineWrites_cons (e : Event) (es : List Event) : lineWrites (e :: es) s = lineWrites es (lineWrite e s) := rfl

theorem lineWrites_append (xs ys : List Event) : lineWrites (xs ++ ys) s = lineWrites ys (lineWrites xs s) := by
  simp [lineWrites]

/-- Line writes change the trace and the pins, and nothing else. -/
theorem lineWrites_spec (es : List Event) :
    ∃ pin, lineWrites es s = { s with W := s.W ++ es, pin := pin } := by
  induction es generalizing s with
  | nil => exact ⟨s.pin, by simp [lineWrites_nil]⟩
  | cons e es ih =>
    obtain ⟨q, hq⟩ := ih (lineWrite e s)
    refine ⟨q, ?_⟩
    rw [lineWrites_cons, hq]
    simp only [lineWrite_mode, lineWrite_pixels, lineWrite_h, lineWrite_busy, lineWrite_pos, lineWrite_last,
      lineWrite_faults, lineWrite_W, lineWrite_log, lineWrite_env, List.append_assoc, List.singleton_append]

/-- A serializer step (R158), and the end of a send (R159). -/
theorem serialize_last (e : Event) (h : s.pos = 913) :
    serialize e s = complete .ok ((lineWrite e s).setSerializer false 0) := by
  simp [serialize, h]

theorem serialize_step (e : Event) (h : s.pos ≠ 913) :
    serialize e s = (lineWrite e s).setSerializer true (s.pos + 1) := by
  simp [serialize, h]

/-! ## Draws -/

/-- Encoding a fraction changes at most the number of draws. -/
theorem brightCode_eq (bf : Frac) : brightCode bf s =
    ((enc5 s.env.cfg bf).getD (Config.freeBright s.env.draws),
      s.setEnv { s.env with draws := s.env.draws + if (enc5 s.env.cfg bf).isNone then 1 else 0 }) := by
  unfold brightCode
  split <;> simp_all [State.setEnv]

theorem openLine_cons (l : Line) {a : OpenResult} {rest : List OpenResult} (h : s.env.acq = a :: rest) :
    openLine l s = (a, s.setEnv { s.env with acq := rest }) := by
  simp [openLine, h]

theorem openLine_nil (l : Line) (h : s.env.acq = []) :
    openLine l s = (if Config.openPin (Config.pinId l) s.env.draws then .ok else .failed,
      s.setEnv { s.env with draws := s.env.draws + 1 }) := by
  simp only [openLine, h]

/-- An open takes the next listed answer, or a free one; nothing of the block changes. -/
theorem openLine_spec (l : Line) :
    ∃ acq draws, (openLine l s).2 = s.setEnv { s.env with acq := acq, draws := draws } := by
  unfold openLine
  split
  · exact ⟨_, s.env.draws, rfl⟩
  · next h => exact ⟨[], _, by rw [← h]⟩

/-- Acquiring a line: its handle takes the answer, a failure is logged, and else only the inputs move on (R101). -/
theorem acquire_eq (l : Line) : acquire l s =
    { s with
      h := s.h.set l (openLine l s).1.handle
      log := s.log ++ (if (openLine l s).1 = .failed then [.acqFail l] else [])
      env := (openLine l s).2.env } := by
  obtain ⟨q, d, hq⟩ := openLine_spec s l
  unfold acquire
  rcases h : openLine l s with ⟨a, t⟩
  rw [h] at hq
  simp only at hq
  subst hq
  cases a <;> simp [State.setHandle, State.addLog, State.setEnv, OpenResult.handle]

/-! ## Admission -/

theorem whenIdle_next {k : Out} {t : State} :
    whenIdle s k = .next t ↔ s.busy = false ∧ k = .next t := by
  unfold whenIdle
  cases s.busy <;> simp

theorem whenReady_next {k : Out} {t : State} :
    whenReady s k = .next t ↔
      (s.mode = .uninit ∧ t = complete .notReady s) ∨ (s.mode = .ready ∧ k = .next t) := by
  unfold whenReady
  cases s.mode <;> simp [eq_comm]

theorem whenUninit_next {k : Out} {t : State} :
    whenUninit s k = .next t ↔
      (s.mode = .ready ∧ t = complete .alreadySetup s) ∨ (s.mode = .uninit ∧ k = .next t) := by
  unfold whenUninit
  cases s.mode <;> simp [eq_comm]

theorem atIndex_next {idx : Int} {k : Fin 8 → Out} {t : State} :
    atIndex idx s k = .next t ↔
      (slotIndex idx = none ∧ t = complete .invalidArgument s) ∨ ∃ i, slotIndex idx = some i ∧ k i = .next t := by
  unfold atIndex
  cases slotIndex idx <;> simp [eq_comm]

@[simp] theorem whenIdle_idle {k : Out} (h : s.busy = false) : whenIdle s k = k := by simp [whenIdle, h]

@[simp] theorem whenReady_ready {k : Out} (h : s.mode = .ready) : whenReady s k = k := by simp [whenReady, h]

@[simp] theorem whenReady_uninit {k : Out} (h : s.mode = .uninit) : whenReady s k = .next (complete .notReady s) := by
  simp [whenReady, h]

@[simp] theorem whenUninit_uninit {k : Out} (h : s.mode = .uninit) : whenUninit s k = k := by simp [whenUninit, h]

@[simp] theorem whenUninit_ready {k : Out} (h : s.mode = .ready) :
    whenUninit s k = .next (complete .alreadySetup s) := by
  simp [whenUninit, h]

theorem slotIndex_eq_some {idx : Int} {i : Fin 8} : slotIndex idx = some i ↔ idx = i.val := by
  unfold slotIndex
  constructor
  · intro h
    split at h
    · next hr =>
      cases h
      simp [Int.toNat_of_nonneg hr.1]
    · cases h
  · rintro rfl
    have := i.isLt
    simp
    omega

@[simp] theorem slotIndex_val (i : Fin 8) : slotIndex (i.val : Int) = some i := slotIndex_eq_some.mpr rfl

theorem slotIndex_eq_none {idx : Int} : slotIndex idx = none ↔ idx < 0 ∨ 7 < idx := by
  unfold slotIndex
  split <;> simp <;> omega

end Sys2Proof.Machine
end

