-- ==== Sys2Proof/Laws/Observe.lean ====
section
/-! SUPPORT. The waveform is what the line writes do to the pins, and sampling one write at a time. -/

namespace Sys2Proof.Machine

variable (h : Lines Handle) (pin : Lines (Option Bool)) (k : Nat)

/-- A line write drives the pins. -/
theorem lineWrite_pin_drive (e : Event) (s : State) : (lineWrite e s).pin = drive s.h s.pin e := lineWrite_pin s e

/-- A write to a working line sets its pin. -/
theorem drive_ok {l : Line} (v : Bool) (hl : h.get l = .ok) : drive h pin (l, v) = pin.set l (some v) := if_pos hl

/-- A write to any other line leaves the pins. -/
theorem drive_not_ok {l : Line} (v : Bool) (hl : h.get l ≠ .ok) : drive h pin (l, v) = pin := if_neg hl

@[simp] theorem drive_dat (v : Bool) : drive bothOk pin (.dat, v) = { pin with dat := some v } := rfl

@[simp] theorem drive_clk (v : Bool) : drive bothOk pin (.clk, v) = { pin with clk := some v } := rfl

@[simp] theorem seen_some {l : Line} {v : Bool} (hl : pin.get l = some v) : seen pin l k = v := by simp [seen, hl]

/-- Line writes leave the pins as the waveform ends. -/
theorem lineWrites_pin (es : List Event) (s : State) : (lineWrites es s).pin = es.foldl (drive s.h) s.pin := by
  induction es generalizing s with
  | nil => rfl
  | cons e es ih => rw [lineWrites_cons, ih, lineWrite_h, lineWrite_pin_drive, List.foldl_cons]

theorem waveform_getLastD (es : List Event) : (waveform h pin es).getLastD pin = es.foldl (drive h) pin := by
  induction es generalizing pin with
  | nil => rfl
  | cons e es ih =>
    rw [List.foldl_cons, ← ih]
    simp only [waveform, List.getLastD_cons]

theorem waveform_length (es : List Event) : (waveform h pin es).length = es.length := by
  induction es generalizing pin with
  | nil => rfl
  | cons e es ih => simp [waveform, ih]

/-- Samples of writes in a row: those of the first part, then those of the second from the pins the first leaves. -/
theorem risingSamples_append (xs ys : List Event) : risingSamples h k pin (xs ++ ys) =
    risingSamples h k pin xs ++ risingSamples h (k + xs.length) (xs.foldl (drive h) pin) ys := by
  induction xs generalizing k pin with
  | nil => rfl
  | cons e xs ih =>
    have hk : k + 1 + xs.length = k + (xs.length + 1) := by omega
    simp only [List.cons_append, risingSamples, List.foldl_cons, List.length_cons, ih, hk]
    split <;> rfl

/-- Edges are clock writes of 1 (R163). -/
theorem risingSamples_no_edge (es : List Event) (he : (.clk, true) ∉ es) : risingSamples h k pin es = [] := by
  induction es generalizing k pin with
  | nil => rfl
  | cons e es ih =>
    rw [List.mem_cons, not_or] at he
    simp only [risingSamples, ih _ _ he.2]
    exact if_neg fun hc => he.1 hc.1.symm

/-- With both handles working, sampling is at the rising edges (R163). -/
@[simp] theorem sampledBits_bothOk (es : List Event) : sampledBits bothOk k pin es = risingSamples bothOk k pin es :=
  if_pos (.inl ⟨rfl, rfl⟩)

/-- Before the first clock write of 1 there is no sample, whatever the handles (R163). -/
theorem sampledBits_no_edge (es : List Event) (he : (.clk, true) ∉ es) : sampledBits h k pin es = [] :=
  (if_pos (.inr he)).trans (risingSamples_no_edge h pin k es he)

/-- After it, with a handle that is not working, the samples are a free value (R167). -/
theorem sampledBits_not_ok (es : List Event) (hl : ∃ l, h.get l ≠ .ok) (he : (.clk, true) ∈ es) :
    sampledBits h k pin es = Config.freeSamples (k + es.length) := by
  obtain ⟨l, hl⟩ := hl
  refine if_neg fun hb => ?_
  rcases hb with hb | hb
  · cases l
    · exact hl hb.1
    · exact hl hb.2
  · exact hb he

/-- With no line write there is nothing to sample, after reset for example. -/
theorem sampledBitstream_nil {s : State} (hw : s.W = []) : s.sampledBitstream = [] := by
  rw [State.sampledBitstream, hw]
  exact sampledBits_no_edge _ _ _ [] (by simp)

end Sys2Proof.Machine
end

