-- ==== Sys2Proof/Laws/PerInstr.lean ====
section
/-! SUPPORT. Statements about every instruction as syntax, one lemma per constructor. -/

namespace Sys2Proof.Laws

/-! ## Format: a wire symbol has a wire word, anything else a command word -/

def Format.Statement (i : Instr) : Prop := (∃ cw, encode i = .command cw) ↔ i.kind ≠ .wireSymbol

theorem Format.setup : Format.Statement .setup := by simp [Statement, encode, Instr.kind]
theorem Format.setPixel (idx r g b : Int) (bf : Frac) : Format.Statement (.setPixel idx r g b bf) := by
  simp [Statement, encode, Instr.kind]
theorem Format.setPixelK (idx r g b : Int) : Format.Statement (.setPixelK idx r g b) := by
  simp [Statement, encode, Instr.kind]
theorem Format.setAll (r g b : Int) (bf : Frac) : Format.Statement (.setAll r g b bf) := by
  simp [Statement, encode, Instr.kind]
theorem Format.setBright (idx : Int) (bf : Frac) : Format.Statement (.setBright idx bf) := by
  simp [Statement, encode, Instr.kind]
theorem Format.clearAll : Format.Statement .clearAll := by simp [Statement, encode, Instr.kind]
theorem Format.send : Format.Statement .send := by simp [Statement, encode, Instr.kind]
theorem Format.reserved00 : Format.Statement .reserved00 := by simp [Statement, encode, Instr.kind]
theorem Format.reserved080F (op : Byte) : Format.Statement (.reserved080F op) := by
  simp [Statement, encode, Instr.kind]
theorem Format.reserved101F (op : Byte) : Format.Statement (.reserved101F op) := by
  simp [Statement, encode, Instr.kind]
theorem Format.reserved203F (op : Byte) : Format.Statement (.reserved203F op) := by
  simp [Statement, encode, Instr.kind]
theorem Format.reserved407F (op : Byte) : Format.Statement (.reserved407F op) := by
  simp [Statement, encode, Instr.kind]
theorem Format.reserved80FF (op : Byte) : Format.Statement (.reserved80FF op) := by
  simp [Statement, encode, Instr.kind]
theorem Format.pixelFrame (v : BitVec 5) (b g r : Byte) : Format.Statement (.pixelFrame v b g r) := by
  simp [Statement, encode, Instr.kind]
theorem Format.latch : Format.Statement .latch := by simp [Statement, encode, Instr.kind]

/-! ## Opcode: the command word's opcode lies in its row's range of the table (R72, R74) -/

/-- The least and the greatest opcode of a row; a wire symbol has none. -/
def rowOpcodes : Instr → Option (Nat × Nat)
  | .setup => some (0x01, 0x01)
  | .setPixel .. => some (0x02, 0x02)
  | .setPixelK .. => some (0x03, 0x03)
  | .setAll .. => some (0x04, 0x04)
  | .setBright .. => some (0x05, 0x05)
  | .clearAll => some (0x06, 0x06)
  | .send => some (0x07, 0x07)
  | .reserved00 => some (0x00, 0x00)
  | .reserved080F _ => some (0x08, 0x0F)
  | .reserved101F _ => some (0x10, 0x1F)
  | .reserved203F _ => some (0x20, 0x3F)
  | .reserved407F _ => some (0x40, 0x7F)
  | .reserved80FF _ => some (0x80, 0xFF)
  | .pixelFrame .. => none
  | .latch => none

def Opcode.Statement (i : Instr) : Prop :=
  i.wf = true → ∀ cw, encode i = .command cw →
    ∃ lo hi, rowOpcodes i = some (lo, hi) ∧ lo ≤ (opField cw).toNat ∧ (opField cw).toNat ≤ hi

/-- An opcode field in a row's range is what the row's well-formedness says. -/
theorem opIn_bounds {lo hi : Nat} {op : Byte} (h : opIn lo hi op = true) : lo ≤ op.toNat ∧ op.toNat ≤ hi := by
  simpa [opIn] using h

theorem Opcode.setup : Opcode.Statement .setup := by
  rintro _ _ ⟨⟩
  exact ⟨1, 1, rfl, by simp, by simp⟩
theorem Opcode.setPixel (idx r g b : Int) (bf : Frac) : Opcode.Statement (.setPixel idx r g b bf) := by
  rintro _ _ ⟨⟩
  exact ⟨2, 2, rfl, by simp, by simp⟩
theorem Opcode.setPixelK (idx r g b : Int) : Opcode.Statement (.setPixelK idx r g b) := by
  rintro _ _ ⟨⟩
  exact ⟨3, 3, rfl, by simp, by simp⟩
theorem Opcode.setAll (r g b : Int) (bf : Frac) : Opcode.Statement (.setAll r g b bf) := by
  rintro _ _ ⟨⟩
  exact ⟨4, 4, rfl, by simp, by simp⟩
theorem Opcode.setBright (idx : Int) (bf : Frac) : Opcode.Statement (.setBright idx bf) := by
  rintro _ _ ⟨⟩
  exact ⟨5, 5, rfl, by simp, by simp⟩
theorem Opcode.clearAll : Opcode.Statement .clearAll := by
  rintro _ _ ⟨⟩
  exact ⟨6, 6, rfl, by simp, by simp⟩
theorem Opcode.send : Opcode.Statement .send := by
  rintro _ _ ⟨⟩
  exact ⟨7, 7, rfl, by simp, by simp⟩
theorem Opcode.reserved00 : Opcode.Statement .reserved00 := by
  rintro _ _ ⟨⟩
  exact ⟨0, 0, rfl, by simp, by simp⟩
theorem Opcode.reserved080F (op : Byte) : Opcode.Statement (.reserved080F op) := by
  rintro h _ ⟨⟩
  exact ⟨_, _, rfl, by simpa using opIn_bounds h⟩
theorem Opcode.reserved101F (op : Byte) : Opcode.Statement (.reserved101F op) := by
  rintro h _ ⟨⟩
  exact ⟨_, _, rfl, by simpa using opIn_bounds h⟩
theorem Opcode.reserved203F (op : Byte) : Opcode.Statement (.reserved203F op) := by
  rintro h _ ⟨⟩
  exact ⟨_, _, rfl, by simpa using opIn_bounds h⟩
theorem Opcode.reserved407F (op : Byte) : Opcode.Statement (.reserved407F op) := by
  rintro h _ ⟨⟩
  exact ⟨_, _, rfl, by simpa using opIn_bounds h⟩
theorem Opcode.reserved80FF (op : Byte) : Opcode.Statement (.reserved80FF op) := by
  rintro h _ ⟨⟩
  exact ⟨_, _, rfl, by simpa using opIn_bounds h⟩
theorem Opcode.pixelFrame (v : BitVec 5) (b g r : Byte) : Opcode.Statement (.pixelFrame v b g r) := by
  rintro _ _ ⟨⟩
theorem Opcode.latch : Opcode.Statement .latch := by
  rintro _ _ ⟨⟩

end Sys2Proof.Laws
end

