-- ==== Sys2Proof/Laws/Step.lean ====
section
/-! SUPPORT. What a step can be, said once: `fetch` by cases, and the inversion of `step`. -/

namespace Sys2Proof.Machine

variable (s : State)

/-- The reset input moves on, and nothing else. -/
@[simp] theorem tickReset_eq : tickReset s = { s with env := { s.env with rst := s.env.rst.tail } } := rfl

@[simp] theorem setPort_eq (rest : List HostAction) :
    setPort rest s = { s with env := { s.env with port := rest } } := rfl

theorem slot_tickReset (i : Fin 8) : (tickReset s).slot i = s.slot i := rfl

theorem fetch_reset (h : resetNow s = true) : fetch s = .done (.next (takeReset (tickReset s))) := by
  simp [fetch, h]

theorem fetch_busy (h : resetNow s = false) (hb : s.busy = true) : fetch s = fetchSymbol (tickReset s) := by
  simp [fetch, h, hb]

theorem fetch_idle (h : resetNow s = false) (hb : s.busy = false) : fetch s = fetchAction (tickReset s) := by
  simp [fetch, h, hb]

/-! ## The serializer's place -/

/-- The three segments, as bounds (R152). -/
theorem segmentOf_cases (pos : Nat) :
    (pos < 73 ∧ segmentOf pos = .latch pos) ∨
    (73 ≤ pos ∧ pos < 841 ∧ segmentOf pos = .frames (pos - 73)) ∨
    (841 ≤ pos ∧ segmentOf pos = .latch (pos - 841)) := by
  unfold segmentOf
  split
  · exact .inl ⟨‹_›, rfl⟩
  · split
    · exact .inr (.inl ⟨by omega, ‹_›, rfl⟩)
    · exact .inr (.inr ⟨by omega, rfl⟩)

/-- The slot of an event of the frame segment. -/
theorem slotOf_frames {pos : Nat} {i : Fin 8} (h1 : 73 + 96 * i.val ≤ pos) (h2 : pos < 73 + 96 * (i.val + 1)) :
    slotOf (pos - 73) = i := by
  have := i.isLt
  apply Fin.ext
  simp only [slotOf, Fin.ofNat]
  omega

/-- The wire symbol in progress writes `ev` at the position, of a buffer the slots hold (R152). -/
theorem exec_symbol {p : Fin 8 → Pixel} (hb : s.busy = true) (hp : s.Holds p) :
    ∃ i, s.symbol = .ok i ∧ exec i s = .next (serialize (ev s.pos.val p) s) := by
  rcases segmentOf_cases s.pos.val with ⟨_, h⟩ | ⟨_, _, h⟩ | ⟨_, h⟩
  · exact ⟨.latch, by simp [State.symbol, h], by simp [exec, execLatch, hb, h, ev]⟩
  · let q := p (slotOf (s.pos.val - 73))
    exact ⟨.pixelFrame q.br q.b q.g q.r, by simp only [State.symbol, h, hp (slotOf _), q],
      by simp [exec, execPixelFrame, hb, h, ev, Pixel.frame, q]⟩
  · exact ⟨.latch, by simp [State.symbol, h], by simp [exec, execLatch, hb, h, ev]⟩

/-- While a send is in progress and the slots hold `p`, a step performs `ev` at the position. -/
theorem step_busy {p : Fin 8 → Pixel} (h : resetNow s = false) (hb : s.busy = true) (hp : s.Holds p) :
    step s = .next (serialize (ev s.pos.val p) (tickReset s)) := by
  obtain ⟨i, hi, he⟩ := exec_symbol (tickReset s) (p := p) hb hp
  simp only [step, fetch_busy s h hb, fetchSymbol, hi]
  exact he

/-- A step that answers next: reset, a line write of the send in progress, idling, a sample, or a command. -/
theorem step_next_cases {s t : State} (h : step s = .next t) :
    (resetNow s = true ∧ t = takeReset (tickReset s)) ∨
    (resetNow s = false ∧ s.busy = true ∧ ∃ e, t = serialize e (tickReset s)) ∨
    (resetNow s = false ∧ s.busy = false ∧ s.env.port = [] ∧ t = tickReset s) ∨
    (resetNow s = false ∧ s.busy = false ∧ ∃ rest, s.env.port = .sample :: rest ∧
      t = sampleStatus (setPort rest (tickReset s))) ∨
    (resetNow s = false ∧ s.busy = false ∧ ∃ cw rest, s.env.port = .command cw :: rest ∧
      exec (decode cw) (setPort rest (tickReset s)) = .next t) := by
  cases hr : resetNow s with
  | true =>
    simp only [step, fetch_reset s hr, Host.Outcome.next.injEq] at h
    exact .inl ⟨rfl, h.symm⟩
  | false =>
    cases hb : s.busy with
    | true =>
      refine .inr (.inl ⟨rfl, rfl, ?_⟩)
      simp only [step, fetch_busy s hr hb, fetchSymbol] at h
      have hb' : (tickReset s).busy = true := hb
      rcases segmentOf_cases (tickReset s).pos.val with ⟨_, hs⟩ | ⟨_, _, hs⟩ | ⟨_, hs⟩
      · simp only [State.symbol, hs, exec, execLatch, hb', Host.Outcome.next.injEq] at h
        exact ⟨_, h.symm⟩
      · cases hp : (tickReset s).slot (slotOf ((tickReset s).pos.val - 73)) with
        | none => simp only [State.symbol, hs, hp, reduceCtorEq] at h
        | some p =>
          simp only [State.symbol, hs, hp, exec, execPixelFrame, hb', Host.Outcome.next.injEq] at h
          exact ⟨_, h.symm⟩
      · simp only [State.symbol, hs, exec, execLatch, hb', Host.Outcome.next.injEq] at h
        exact ⟨_, h.symm⟩
    | false =>
      refine .inr (.inr ?_)
      have hp : (tickReset s).env.port = s.env.port := rfl
      cases hq : s.env.port with
      | nil =>
        simp only [step, fetch_idle s hr hb, fetchAction, hp, hq, Host.Outcome.next.injEq] at h
        exact .inl ⟨rfl, rfl, rfl, h.symm⟩
      | cons a rest =>
        cases a with
        | sample =>
          simp only [step, fetch_idle s hr hb, fetchAction, hp, hq, Host.Outcome.next.injEq] at h
          exact .inr (.inl ⟨rfl, rfl, rest, rfl, h.symm⟩)
        | command cw =>
          simp only [step, fetch_idle s hr hb, fetchAction, hp, hq] at h
          exact .inr (.inr ⟨rfl, rfl, cw, rest, rfl, h⟩)

/-! ## Commands -/

/-- The command port decodes to no wire symbol. -/
theorem decode_kind (cw : BitVec 200) : (decode cw).kind ≠ .wireSymbol := by
  unfold decode reservedRow
  split <;> (try split_ifs) <;> simp [Instr.kind]

/-- What an instruction of the command port can do when it goes on: fault, set up, write the buffer, or admit a send. -/
theorem exec_next_cases {s t : State} {i : Instr} (hk : i.kind ≠ .wireSymbol) (h : exec i s = .next t) :
    s.busy = false ∧
    ((∃ c, c ≠ .ok ∧ t = complete c s) ∨
    (i = .setup ∧ s.mode = .uninit ∧
      t = complete .ok (((acquire .clk (acquire .dat s)).mapSlots fun _ => initPixel).setMode .ready)) ∨
    (s.mode = .ready ∧ ∃ px draws, t = complete .ok { s with pixels := px, env := { s.env with draws := draws } } ∧
      ∀ j, (s.slot j).isSome = true → (t.slot j).isSome = true) ∨
    (i = .send ∧ s.mode = .ready ∧ t = s.setSerializer true 0)) := by
  cases i with
  | latch => exact absurd rfl hk
  | pixelFrame => exact absurd rfl hk
  | setup =>
    simp only [exec, execSetup, whenIdle_next, whenUninit_next, Host.Outcome.next.injEq] at h
    obtain ⟨hb, ⟨hm, rfl⟩ | ⟨hm, rfl⟩⟩ := h
    · exact ⟨hb, .inl ⟨_, by decide, rfl⟩⟩
    · exact ⟨hb, .inr (.inl ⟨rfl, hm, rfl⟩)⟩
  | setPixel idx r g b bf =>
    simp only [exec, execSetPixel, whenIdle_next, whenReady_next, atIndex_next, brightCode_eq,
      Host.Outcome.next.injEq] at h
    obtain ⟨hb, ⟨hm, rfl⟩ | ⟨hm, ⟨_, rfl⟩ | ⟨i, _, rfl⟩⟩⟩ := h
    · exact ⟨hb, .inl ⟨_, by decide, rfl⟩⟩
    · exact ⟨hb, .inl ⟨_, by decide, rfl⟩⟩
    · refine ⟨hb, .inr (.inr (.inl ⟨hm, _, _, rfl, fun j hj => ?_⟩))⟩
      by_cases hij : j = i
      · subst hij; simp
      · exact (congrArg Option.isSome (slot_setSlot_ne _ _ hij)).trans hj
  | setPixelK idx r g b =>
    simp only [exec, execSetPixelK, whenIdle_next, whenReady_next, atIndex_next,
      Host.Outcome.next.injEq] at h
    obtain ⟨hb, ⟨hm, rfl⟩ | ⟨hm, ⟨_, rfl⟩ | ⟨i, _, rfl⟩⟩⟩ := h
    · exact ⟨hb, .inl ⟨_, by decide, rfl⟩⟩
    · exact ⟨hb, .inl ⟨_, by decide, rfl⟩⟩
    · refine ⟨hb, .inr (.inr (.inl ⟨hm, _, s.env.draws, rfl, fun j hj => ?_⟩))⟩
      by_cases hij : j = i
      · subst hij; simp
      · exact (congrArg Option.isSome (slot_setSlot_ne _ _ hij)).trans hj
  | setAll r g b bf =>
    simp only [exec, execSetAll, whenIdle_next, whenReady_next, brightCode_eq,
      Host.Outcome.next.injEq] at h
    obtain ⟨hb, ⟨hm, rfl⟩ | ⟨hm, rfl⟩⟩ := h
    · exact ⟨hb, .inl ⟨_, by decide, rfl⟩⟩
    · refine ⟨hb, .inr (.inr (.inl ⟨hm, _, _, rfl, fun j hj => ?_⟩))⟩
      simp
  | setBright idx bf =>
    simp only [exec, execSetBright, whenIdle_next, whenReady_next, atIndex_next, brightCode_eq] at h
    obtain ⟨hb, ⟨hm, rfl⟩ | ⟨hm, ⟨_, rfl⟩ | ⟨i, _, h⟩⟩⟩ := h
    · exact ⟨hb, .inl ⟨_, by decide, rfl⟩⟩
    · exact ⟨hb, .inl ⟨_, by decide, rfl⟩⟩
    · split at h
      · cases h
      · cases h
        refine ⟨hb, .inr (.inr (.inl ⟨hm, _, _, rfl, fun j hj => ?_⟩))⟩
        by_cases hij : j = i
        · subst hij; simp
        · exact (congrArg Option.isSome (slot_setSlot_ne _ _ hij)).trans hj
  | clearAll =>
    simp only [exec, execClearAll, whenIdle_next, whenReady_next,
      Host.Outcome.next.injEq] at h
    obtain ⟨hb, ⟨hm, rfl⟩ | ⟨hm, rfl⟩⟩ := h
    · exact ⟨hb, .inl ⟨_, by decide, rfl⟩⟩
    · refine ⟨hb, .inr (.inr (.inl ⟨hm, _, s.env.draws, rfl, fun j hj => ?_⟩))⟩
      simp
  | send =>
    simp only [exec, execSend, whenIdle_next, whenReady_next, Host.Outcome.next.injEq] at h
    obtain ⟨hb, ⟨hm, rfl⟩ | ⟨hm, rfl⟩⟩ := h
    · exact ⟨hb, .inl ⟨_, by decide, rfl⟩⟩
    · exact ⟨hb, .inr (.inr (.inr ⟨rfl, hm, rfl⟩))⟩
  | reserved00 | reserved080F | reserved101F | reserved203F | reserved407F | reserved80FF =>
    simp only [exec, execReserved00, execReserved080F, execReserved101F, execReserved203F, execReserved407F,
      execReserved80FF, illegalCommand, raise, whenIdle_next, Host.Outcome.next.injEq] at h
    obtain ⟨hb, rfl⟩ := h
    exact ⟨hb, .inl ⟨_, by decide, rfl⟩⟩

end Sys2Proof.Machine
end

