-- ==== Sys2Proof/Tests/Slice0.lean ====
section
/-! SUPPORT. Tests, whose expected results are the vectors V10 to V33 of 95_test_vectors and the rules' own examples, and
for every statement that has hypotheses a witness that meets them. -/

namespace Sys2Proof.Machine.Slice0

open Sys2Proof Sys2Proof.Machine

-- One theorem at a time: the evaluations would each hold a thread.
set_option Elab.async false

/-! ## Small states -/

/-- After `SETUP`: all white, the handles as given (V18). -/
def readyWith (d c : Handle) : State :=
  { State.reset with
    mode := .ready
    pixels := #v[some initPixel, some initPixel, some initPixel, some initPixel,
      some initPixel, some initPixel, some initPixel, some initPixel]
    h := { dat := d, clk := c } }

def ready : State := readyWith .ok .ok

/-- A send of the white buffer at position `k`. -/
def sending (k : Fin 914) : State := { ready with busy := true, pos := k }

/-- With the collaborator's answers. -/
def answering (acq : List OpenResult) (s : State) : State := { s with env := { s.env with acq := acq } }

/-- With the host about to act. -/
def about (port : List HostAction) (s : State) : State := { s with env := { s.env with port := port } }

def nextOf : Out → Option State
  | .next t => some t
  | .fault _ => none
  | .refused _ => none

theorem next_of {o : Out} (h : (nextOf o).isSome = true) : ∃ t, o = .next t := by
  cases o with
  | next t => exact ⟨t, rfl⟩
  | fault f => cases h
  | refused r => cases h

/-- One field of the state an outcome goes on in. -/
def after {α : Type} (o : Out) (f : State → α) : Option α := (nextOf o).map f

/-- `SETUP`, `SETPIXEL 0, 255, 0, 0, 1.0` and `SEND` as V16 writes them. -/
def setupWord : BitVec 200 := 0x01000000000000000000000000000000000000000000000000#200
def redWord : BitVec 200 := 0x0200000000000000FF00000000000000003FF0000000000000#200
def sendWord : BitVec 200 := 0x07000000000000000000000000000000000000000000000000#200

/-! ## Well-formedness: a term that each check refuses -/

theorem test_wf_refuses_setPixel :
    [Instr.setPixel 2147483648 0 0 0 0, .setPixel 0 (-2147483649) 0 0 0, .setPixel 0 0 2147483648 0 0,
      .setPixel 0 0 0 2147483648 0].map Instr.wf = [false, false, false, false] := by
  decide

theorem test_wf_refuses_setPixelK :
    [Instr.setPixelK (-2147483649) 0 0 0, .setPixelK 0 2147483648 0 0, .setPixelK 0 0 2147483648 0,
      .setPixelK 0 0 0 2147483648].map Instr.wf = [false, false, false, false] := by
  decide

theorem test_wf_refuses_setAll :
    [Instr.setAll 2147483648 0 0 0, .setAll 0 2147483648 0 0, .setAll 0 0 (-2147483649) 0].map Instr.wf =
      [false, false, false] := by
  decide

theorem test_wf_refuses_setBright : (Instr.setBright 2147483648 0).wf = false := by decide

theorem test_wf_refuses_reserved :
    [Instr.reserved080F 0x07, .reserved080F 0x10, .reserved101F 0x0F, .reserved101F 0x20, .reserved203F 0x1F,
      .reserved203F 0x40, .reserved407F 0x3F, .reserved407F 0x80, .reserved80FF 0x7F].map Instr.wf =
      List.replicate 9 false := by
  decide

/-! ## Decoding: words of V15 to V17, and the ends of the reserved ranges (R74) -/

theorem test_decode_setup : decodeTableWord 200 0x01000000000000000000000000000000000000000000000000 = some .setup := by
  decide +kernel

theorem test_decode_setPixel :
    decodeTableWord 200 0x020000000300000110FFFFFFFF000012343FE0000000000000 =
      some (.setPixel 3 272 (-1) 4660 0x3FE0000000000000) := by
  decide +kernel

theorem test_decode_setPixelK :
    decodeTableWord 200 0x03000000020000000A000000140000001E7FF8000000000000 = some (.setPixelK 2 10 20 30) := by
  decide +kernel

theorem test_decode_setAll :
    decodeTableWord 200 0x04000000000000000000000000000000FF3FD0000000000000 =
      some (.setAll 0 0 255 0x3FD0000000000000) := by
  decide +kernel

theorem test_decode_setBright :
    decodeTableWord 200 0x05FFFFFFFF0000000000000000000000003FE0000000000000 =
      some (.setBright (-1) 0x3FE0000000000000) := by
  decide +kernel

theorem test_decode_clearAll :
    decodeTableWord 200 0x06000000050000000000000000000000000000000000000000 = some .clearAll := by
  decide +kernel

theorem test_decode_send :
    decodeTableWord 200 0x07ABABABABABABABABABABABABABABABABABABABABABABABAB = some .send := by
  decide +kernel

theorem test_decode_reserved00 : decodeTableWord 200 0 = some .reserved00 := by decide +kernel

theorem test_decode_reserved_ends :
    [0x08, 0x0F, 0x10, 0x1F, 0x20, 0x3F, 0x40, 0x7F, 0x80, 0xFF].map (fun op => decodeTableWord 200 (op * 2 ^ 192)) =
      [some (.reserved080F 0x08), some (.reserved080F 0x0F), some (.reserved101F 0x10), some (.reserved101F 0x1F),
        some (.reserved203F 0x20), some (.reserved203F 0x3F), some (.reserved407F 0x40), some (.reserved407F 0x7F),
        some (.reserved80FF 0x80), some (.reserved80FF 0xFF)] := by
  decide +kernel

theorem test_decode_pixelFrame :
    decodeTableWord 32 0xEF34FF10 = some (.pixelFrame 15 52 255 16) ∧ decodeTableWord 32 0x1F34FF10 = none := by
  decide +kernel

theorem test_decode_latch :
    decodeTableWord 36 0 = some .latch ∧ decodeTableWord 40 0 = some .latch ∧ decodeTableWord 36 1 = none := by
  decide +kernel

/-- V16's 25 bytes of `SETPIXEL 0, 255, 0, 0, 1.0`. -/
theorem test_bytes_of_setPixel :
    cwBytes redWord = [0x02, 0, 0, 0, 0, 0, 0, 0, 0xFF, 0, 0, 0, 0, 0, 0, 0, 0, 0x3F, 0xF0, 0, 0, 0, 0, 0, 0] := by
  decide +kernel

/-- V16's word of `SETPIXELK 2, 10, 20, 30`. -/
theorem test_encode_is_canonical :
    encode (.setPixelK 2 10 20 30) = .command 0x03000000020000000A000000140000001E0000000000000000#200 := by
  decide +kernel

/-- The written form of V31's fourth command, its fraction rounded to the binary64 that V16 gives for 0.1. -/
theorem test_written_form :
    (Written.setBrightness 7 { num := 1, places := 1 }).assemble =
      some (.command 0x05000000070000000000000000000000003FB999999999999A#200) ∧
    (Decimal.mk 999 3).frac = 0x3FEFF7CED916872B ∧ (Decimal.mk (-1) 2).frac = 0xBF847AE147AE147B := by
  decide +kernel

/-! ## Values: V10 to V13, V15 -/

theorem test_chan8 :
    [0, 128, 255, 256, 257, 272, 511, 1000, 4660, -1, -128, -256, -257, 2147483647, -2147483648].map chan8 =
      [0, 128, 255, 0, 1, 16, 255, 232, 52, 255, 128, 0, 255, 255, 0] := by
  decide

theorem test_chan8_fractional :
    [chan8Frac 2559 10, chan8Frac (-5) 10, chan8Frac (-15) 10, chan8Frac 2565 10] = [255, 0, 255, 0] := by decide

/-- V11, under both instances of `MUL31`. -/
theorem test_enc5_in_range :
    [Mul31.exact, Mul31.ieee].map (fun m =>
      [0x0000000000000000#64, 0x8000000000000000#64, 0x0000000000000001#64, 0x3FA0000000000000#64,
        0x3FA999999999999A#64, 0x3FD3333333333333#64, 0x3FD5555555555555#64, 0x3FECCCCCCCCCCCCD#64,
        0x3FEFFFFFFFFFFFFF#64, 0x3FF0000000000000#64].map (enc5 { mul31 := m, oor := .truncMod32 })) =
      List.replicate 2 ([0, 0, 0, 0, 1, 9, 10, 27, 30, 31].map some) := by
  decide +kernel

/-- V12. -/
theorem test_enc5_exact_and_ieee :
    [0x3FA0842108421084#64, 0x3FB0842108421084#64, 0x3FF1084210842108#64].map (fun bf =>
      (enc5 { mul31 := .exact, oor := .truncMod32 } bf, enc5 { mul31 := .ieee, oor := .truncMod32 } bf)) =
      [(some 0, some 1), (some 1, some 2), (some 0, some 1)] := by
  decide +kernel

/-- V13, the default and the floor column. -/
theorem test_enc5_out_of_range :
    [0xBF847AE147AE147B#64, 0x8000000000000001#64, 0xBFE0000000000000#64, 0xBFF0000000000000#64,
      0x3FF0A3D70A3D70A4#64, 0x3FF8000000000000#64, 0x4000000000000000#64, 0x7E37E43C8800759C#64].map (fun bf =>
      (enc5 { mul31 := .exact, oor := .truncMod32 } bf, enc5 { mul31 := .exact, oor := .floorMod32 } bf)) =
      [(some 0, some 31), (some 0, some 31), (some 17, some 16), (some 1, some 1), (some 0, some 0),
        (some 14, some 14), (some 30, some 30), (some 0, some 0)] := by
  decide +kernel

/-- V14. -/
theorem test_enc5_draws :
    [0x7FF0000000000000#64, 0xFFF0000000000000#64, 0x7FF8000000000000#64, 0x7FEFFFFFFFFFFFFF#64].map (fun bf =>
      (enc5 { mul31 := .exact, oor := .truncMod32 } bf, enc5 { mul31 := .ieee, oor := .truncMod32 } bf)) =
      [(none, none), (none, none), (none, none), (some 0, none)] := by
  decide +kernel

theorem test_frame :
    [Pixel.mk 255 0 0 31, Pixel.mk 0 0 0 0, Pixel.mk 1 2 3 15, Pixel.mk 0x12 0x34 0x56 7].map Pixel.frame =
      [0xFF0000FF#32, 0xE0000000#32, 0xEF030201#32, 0xE7563412#32] := by
  decide +kernel

/-! ## One step of each instruction: V18 to V27 -/

theorem test_setup_status :
    [[OpenResult.ok, .ok], [.ok, .failed], [.failed, .ok], [.failed, .failed]].map (fun a =>
      after (exec .setup (answering a State.reset)) fun t => (t.status, t.log)) =
      [some (0x0001#16, []), some (0x0009#16, [.acqFail .clk]), some (0x0005#16, [.acqFail .dat]),
        some (0x000D#16, [.acqFail .dat, .acqFail .clk])] := by
  decide +kernel

theorem test_setup_twice : after (exec .setup ready) State.status = some 0x0431#16 := by decide +kernel

theorem test_setPixel :
    after (exec (.setPixel 3 272 (-1) 4660 0x3FE0000000000000) ready) (fun t => (t.slot 2, t.slot 3)) =
      some (some ⟨255, 255, 255, 31⟩, some ⟨16, 255, 52, 15⟩) := by
  decide +kernel

/-- V19, V26: index 8, a NaN, no draw. -/
theorem test_setPixel_index :
    after (exec (.setPixel 8 1 2 3 0x7FF8000000000000) ready) (fun t => (t.status, t.pixels == ready.pixels, t.env.draws)) =
      some (0x0841#16, true, 0) := by
  decide +kernel

theorem test_setPixelK :
    after (exec (.setPixelK 2 256 257 (-1)) (ready.setSlot 2 ⟨9, 9, 9, 0⟩)) (fun t => t.slot 2) =
      some (some ⟨0, 1, 255, 0⟩) := by
  decide +kernel

/-- V27: the mode comes before the index. -/
theorem test_setPixelK_priority : after (exec (.setPixelK 9 1 2 3) State.reset) State.status = some 0x0220#16 := by
  decide +kernel

theorem test_setAll :
    after (exec (.setAll 300 (-2) 0 0x3FE8000000000000) ready) (fun t => (List.finRange 8).map t.slot) =
      some (List.replicate 8 (some ⟨44, 254, 0, 23⟩)) := by
  decide +kernel

theorem test_setAll_not_ready : after (exec (.setAll 0 0 0 0) State.reset) State.status = some 0x0220#16 := by
  decide +kernel

theorem test_setBright :
    after (exec (.setBright 1 0x3FB999999999999A) (ready.setSlot 1 ⟨1, 2, 3, 31⟩)) (fun t => t.slot 1) =
      some (some ⟨1, 2, 3, 3⟩) := by
  decide +kernel

theorem test_setBright_index : after (exec (.setBright (-1) 0) ready) State.status = some 0x0841#16 := by decide +kernel

theorem test_clearAll :
    after (exec .clearAll ((ready.setSlot 0 ⟨255, 0, 0, 31⟩).setSlot 1 ⟨1, 2, 3, 15⟩)) (fun t =>
      [t.slot 0, t.slot 1, t.slot 2]) =
      some [some ⟨0, 0, 0, 31⟩, some ⟨0, 0, 0, 15⟩, some ⟨0, 0, 0, 31⟩] := by
  decide +kernel

/-- V26's last row: the sticky bit stays. -/
theorem test_clearAll_keeps_faults :
    after (exec .clearAll (raise .invalidArgument ready)) State.status = some 0x0801#16 := by
  decide +kernel

theorem test_send_admission : after (exec .send ready) (fun t => (t.status, t.pos, t.W)) = some (0x0003#16, 0, []) := by
  decide +kernel

theorem test_send_not_ready : after (exec .send State.reset) (fun t => (t.status, t.W)) = some (0x0220#16, []) := by
  decide +kernel

theorem test_reserved_in_either_mode :
    (after (exec .reserved00 State.reset) State.status, after (exec (.reserved80FF 0xFF) ready) State.status) =
      (some 0x0110#16, some 0x0111#16) := by
  decide +kernel

theorem test_reserved_ranges :
    [exec (.reserved080F 8) ready, exec (.reserved101F 16) ready, exec (.reserved203F 32) ready,
      exec (.reserved407F 64) ready].map (fun o => after o State.status) = List.replicate 4 (some 0x0111#16) := by
  decide +kernel

/-- V24: the latches, and the end of a send. -/
theorem test_latch :
    [0, 1, 2, 71, 72, 841, 842, 912, 913].map (fun k : Fin 914 =>
      after (exec .latch (sending k)) fun t => (t.W, t.busy)) =
      [some ([(.dat, false)], true), some ([(.clk, true)], true), some ([(.clk, false)], true),
        some ([(.clk, true)], true), some ([(.clk, false)], true), some ([(.dat, false)], true),
        some ([(.clk, true)], true), some ([(.clk, true)], true), some ([(.clk, false)], false)] := by
  decide +kernel

/-- R151: a failed line is recorded and shows nothing. -/
theorem test_latch_failed_line :
    after (exec .latch { readyWith .failed .ok with busy := true }) (fun t => (t.W, t.pin.dat)) =
      some ([(.dat, false)], none) := by
  decide +kernel

/-- V24's positions of slot 0 = (255, 0, 0, 31). -/
theorem test_pixelFrame :
    [73, 74, 75, 94, 97, 121, 145, 166, 168].map (fun k : Fin 914 =>
      after (exec (.pixelFrame 31 0 0 255) (sending k)) State.W) =
      [some [(.dat, true)], some [(.clk, true)], some [(.clk, false)], some [(.dat, true)], some [(.dat, false)],
        some [(.dat, false)], some [(.dat, true)], some [(.dat, true)], some [(.clk, false)]] := by
  decide +kernel

theorem test_pixelFrame_last :
    after (exec (.pixelFrame 31 255 255 255) (sending 840)) (fun t => (t.pos, t.pin)) =
      some (841, { dat := none, clk := some false }) := by
  decide +kernel

/-! ## Observations -/

/-- V28: with the clock high the first rising edge is lost; R161: the waveform of the first three writes. -/
theorem test_sampled_first_edge :
    [true, false].map (fun c => sampledBits bothOk 0 { dat := some true, clk := some c }
      [(.dat, false), (.clk, true), (.clk, false), (.dat, true), (.clk, true)]) = [[true], [false, true]] ∧
    waveform bothOk unspecifiedPins [(.dat, false), (.clk, true), (.clk, false)] =
      [{ dat := some false, clk := none }, { dat := some false, clk := some true },
        { dat := some false, clk := some false }] := by
  decide +kernel

/-- Log 24: an integer no field can hold has no word. -/
theorem test_written_integer_without_a_word : (Written.setPixelOmitted 4294967296 0 0 0).assemble = none := by decide

/-- V29, V33, R163: with no clock write there is no sample; a failed clock line shows nothing, and the samples of a send
through it are free. -/
theorem test_sampled_failed_clock :
    State.reset.sampledBitstream = [] ∧ (readyWith .failed .failed).sampledBitstream = [] ∧
    sampledBits { dat := .ok, clk := .failed } 0 unspecifiedPins [(.dat, false), (.clk, true)] =
      Config.freeSamples 2 ∧
    waveform { dat := .ok, clk := .failed } unspecifiedPins [(.dat, false), (.clk, true)] =
      [{ dat := some false, clk := none }, { dat := some false, clk := none }] :=
  ⟨rfl, rfl, rfl, by decide +kernel⟩

/-! ## The step -/

/-- A word placed after reset is what the next step runs. -/
theorem test_step_runs_the_placed_word :
    after (step (State.reset.withFetchWord 200 0x02000000090000000100000002000000033FF0000000000000)) State.status =
      some 0x0220#16 ∧
    after (step (State.reset.withFetchWord 32 0xE7563412)) State.W = some [(.dat, true)] ∧
    after (step (State.reset.withFetchWord 36 0)) State.W = some [(.dat, false)] := by
  decide +kernel

/-- V18's first row through the port. -/
theorem test_step_runs_setup :
    after (step (about [.command setupWord] (answering [.ok, .ok] State.reset))) (fun t => (t.status, t.env.replies)) =
      some (0x0001#16, [.code .ok]) := by
  decide +kernel

theorem test_reset_status : State.reset.status = 0x0000#16 := by decide +kernel

/-! ## Witnesses: each statement that has hypotheses, with a state and operands that meet them together -/

/-- A send of the white buffer at `k`, with the events before it in the trace. -/
def white : Fin 8 → Pixel := fun _ => initPixel
def sendingAt (k : Fin 914) : State := { sending k with W := (sendEvents white).take k.val }

/-- Between sends: one send of the white buffer is complete. -/
def sent : State := { ready with W := sendEvents white, pin := { dat := some false, clk := some false } }

/-- A reset state whose host is about to issue `SETUP`, and a state about to be reset. -/
def starting : State := about [.command setupWord] (answering [.ok, .failed] State.reset)
def interrupted : State := { sending 500 with env := { Env.reset with rst := [true] } }

/-- `Ready` with slot 0 undefined, a state that no run reaches. -/
def holed : State := { ready with pixels := ready.pixels.set 0 none }

theorem inv_of_ready {s : State} (hm : s.mode = .ready) (hh : s.h = ready.h) (hp : s.pixels = ready.pixels)
    (hi : s.busy = false → s.pos = 0) (hw : ∃ n, s.W.length = 914 * n + s.pos.val) : s.Inv where
  uninit h := by rw [hm] at h; cases h
  ready _ := by
    constructor
    · rw [hh]; intro l; cases l <;> decide
    · unfold State.slot; rw [hp]; decide
  busyReady _ := hm
  idlePos := hi
  traceLength := hw

theorem inv_sendingAt (k : Fin 914) : (sendingAt k).Inv :=
  inv_of_ready rfl rfl rfl (fun h => by cases h) ⟨0, by
    have : (sendEvents white).length = 914 := by decide +kernel
    have hk := k.isLt
    show ((sendEvents white).take k.val).length = _ + k.val
    rw [List.length_take]
    omega⟩

theorem inv_sent : sent.Inv := inv_of_ready rfl rfl rfl (fun _ => rfl) ⟨1, by decide +kernel⟩

theorem inv_reset (e : Env) : (State.reset.setEnv e).Inv where
  uninit _ := ⟨rfl, rfl, rfl, by show ∀ i, State.reset.slot i = none; decide⟩
  ready h := by cases h
  busyReady h := by cases h
  idlePos _ := rfl
  traceLength := ⟨0, rfl⟩

theorem traceInv_sendingAt (k : Fin 914) : (sendingAt k).TraceInv :=
  ⟨[], white, rfl, fun _ => by show ∀ i, ready.slot i = some (white i); decide⟩

theorem traceInv_sent : sent.TraceInv :=
  ⟨[white], white, by
    show sendEvents white = (sendEvents white ++ []) ++ (sendEvents white).take 0
    rw [List.take_zero, List.append_nil, List.append_nil], fun h => by cases h⟩

theorem pinInv_sent : sent.PinInv := by intro l; cases l <;> decide +kernel

theorem pinInv_reset (e : Env) : (State.reset.setEnv e).PinInv := by intro l; cases l <;> rfl

theorem pinInv_sending : (sendingAt 0).PinInv := by intro l; cases l <;> decide +kernel

theorem witness_ResetLeavesTheSpecsState :
    (∃ s, takeReset (sending 500) = takeReset s) ∧ (takeReset (sending 500)).env.rst = [] ∧
      (takeReset (sending 500)).env.port = [] ∧ State.reset.env.rst = [] ∧ State.reset.env.port = [] :=
  ⟨⟨_, rfl⟩, rfl, rfl, rfl, rfl⟩

theorem witness_AssertedResetComesFirst : resetNow interrupted = true := by decide

theorem witness_StepRunsTheHeadCommand :
    resetNow starting = false ∧ starting.busy = false ∧ starting.env.port = [.command setupWord] := by decide

theorem witness_StepRunsTheWireSymbol_latch :
    [0, 72, 841, 913].all (fun k : Fin 914 =>
      !resetNow (sending k) && (sending k).busy && (decide (k.val < 73) || decide (841 ≤ k.val))) = true := by
  decide

theorem witness_StepRunsTheWireSymbol_frame :
    [((0 : Fin 8), (73 : Fin 914)), (0, 168), (7, 745), (7, 840)].all (fun x =>
      !resetNow (sending x.2) && (sending x.2).busy && decide (73 + 96 * x.1.val ≤ x.2.val) &&
        decide (x.2.val < 73 + 96 * (x.1.val + 1)) && decide ((sending x.2).slot x.1 = some initPixel)) = true := by
  decide

theorem witness_StepRunsTheWireSymbol_undefined :
    resetNow { holed with busy := true, pos := 73 } = false ∧
      State.slot { holed with busy := true, pos := 73 } 0 = none := by
  decide

theorem witness_StepSamplesOrIdles :
    resetNow ready = false ∧ ready.busy = false ∧ ready.env.port = [] ∧
      resetNow (about [.sample] ready) = false ∧ (about [.sample] ready).busy = false ∧
      (about [.sample] ready).env.port = [.sample] := by
  decide

theorem witness_DecodeOfEncodeIsTheInstruction :
    [.setup, .setPixel (-2147483648) 2147483647 (-1) 0 0xFFFFFFFFFFFFFFFF, .setPixelK 2147483647 0 0 (-2147483648),
      .setAll 2147483647 (-2147483648) 0 0x7FF8000000000001, .setBright (-2147483648) 1, .clearAll, .send, .reserved00,
      .reserved080F 0x0F, .reserved101F 0x10, .reserved203F 0x3F, .reserved407F 0x40, .reserved80FF 0xFF,
      .pixelFrame 31 255 255 255, .latch].all Instr.wf = true := by
  decide

theorem witness_UnusedFieldsAreIgnored :
    agreeInUsedFields 0x07ABABABABABABABABABABABABABABABABABABABABABABABAB#200 sendWord :=
  ⟨by decide +kernel, trivial⟩

theorem witness_BytesCarryTheCommandWord :
    0 < 25 ∧ 24 < 25 ∧ ([] : List Byte).length ≠ 25 ∧ (List.replicate 26 (0 : Byte)).length ≠ 25 := by
  decide

theorem witness_ReservedOpcodesRaiseIllegalCommand :
    ready.busy = false ∧ (opField 0#200).toNat = 0 ∧ 8 ≤ (opField (BitVec.ofNat 200 (8 * 2 ^ 192))).toNat ∧
      8 ≤ (opField (BitVec.ofNat 200 (255 * 2 ^ 192))).toNat ∧ (opField setupWord).toNat = 1 ∧
      (opField sendWord).toNat = 7 := by
  decide +kernel

theorem witness_ReservedOpcodesRaiseIllegalCommand_legal : ∃ t, exec (decode sendWord) ready = .next t :=
  next_of (by decide +kernel)

theorem witness_SetupAcquiresFillsAndIsReady :
    State.reset.busy = false ∧ State.reset.mode = .uninit ∧ State.reset.env.acq = [] ∧
      (answering [.failed, .ok] State.reset).mode = .uninit ∧ (answering [.failed, .ok] State.reset).busy = false ∧
      (answering [.failed, .ok] State.reset).env.acq = [.failed, .ok] ∧
      (answering [.ok] State.reset).mode = .uninit ∧ (answering [.ok] State.reset).env.acq = [.ok] := by
  decide

theorem witness_SecondSetupIsAlreadySetup : ready.busy = false ∧ ready.mode = .ready := by decide

theorem witness_SetPixelReplacesTheSlot : ready.busy = false ∧ ready.mode = .ready ∧ (0 : Fin 8) ≠ 7 := by decide

theorem witness_SetPixelKKeepsTheBrightness :
    ready.busy = false ∧ ready.mode = .ready ∧ ready.slot 0 = some initPixel ∧ (0 : Fin 8) ≠ 7 ∧
      holed.busy = false ∧ holed.mode = .ready ∧ holed.slot 0 = none := by
  decide

theorem witness_SetAllReplacesEverySlot : ready.busy = false ∧ ready.mode = .ready := by decide

theorem witness_SetBrightWritesOnlyTheBrightness :
    ready.busy = false ∧ ready.mode = .ready ∧ ready.slot 7 = some initPixel ∧ (0 : Fin 8) ≠ 7 := by
  decide

theorem witness_SetBrightOfAnUndefinedSlotStops :
    holed.busy = false ∧ holed.mode = .ready ∧ holed.slot 0 = none := by
  decide

theorem witness_ClearAllKeepsEachBrightness :
    ready.busy = false ∧ ready.mode = .ready ∧ ready.slot 7 = some initPixel ∧ holed.busy = false ∧
      holed.mode = .ready ∧ holed.slot 0 = none := by
  decide

theorem witness_ReservedRowsComplete : ready.busy = false ∧ State.reset.busy = false := by decide

theorem witness_LatchWritesByPosition :
    (sending 0).busy = true ∧ (sending 0).pos.val = 0 ∧ (sending 841).pos.val = 841 ∧
      (sending 1).pos.val = 0 + 1 ∧ (sending 72).pos.val = 71 + 1 ∧ 71 + 1 ≤ 72 ∧
      (sending 842).pos.val = 0 + 842 ∧ (sending 913).pos.val = 71 + 842 := by
  decide

theorem witness_PixelFrameWritesByPosition :
    (sending 73).busy = true ∧ (sending 73).pos.val = 73 + 96 * (0 : Fin 8).val + 3 * 0 ∧
      (sending 838).pos.val = 73 + 96 * (7 : Fin 8).val + 3 * 31 ∧
      (sending 839).pos.val = 73 + 96 * (7 : Fin 8).val + 3 * 31 + 1 ∧
      (sending 840).pos.val = 73 + 96 * (7 : Fin 8).val + 3 * 31 + 2 ∧ 31 < 32 := by
  decide

theorem witness_SendIsAdmitted : ready.busy = false ∧ ready.mode = .ready := by decide

theorem witness_SendRunsToTheWholeSend :
    ready.busy = false ∧ ready.mode = .ready ∧ ready.Holds white ∧ (∀ b ∈ ready.env.rst.take 914, b = false) :=
  ⟨rfl, rfl, by unfold State.Holds; decide, by decide⟩

theorem witness_WireSymbolsRunWhole :
    (sending 0).busy = true ∧ (∀ b ∈ (sending 0).env.rst.take 96, b = false) ∧ (sending 0).pos.val = 0 ∧
      (sending 841).busy = true ∧ (sending 841).pos.val = 841 ∧
      (sending 73).pos.val = 73 + 96 * (0 : Fin 8).val ∧ (sending 73).slot 0 = some initPixel ∧
      (sending 745).pos.val = 73 + 96 * (7 : Fin 8).val ∧ (sending 745).slot 7 = some initPixel := by
  decide

theorem witness_CommandsBeforeSetupAreNotReady :
    [Instr.setPixel 9 0 0 0 0, .setPixelK 0 0 0 0, .setAll 0 0 0 0, .setBright 7 0, .clearAll, .send].all (fun i =>
      decide (i.kind = .command) && decide (i ≠ .setup)) = true ∧
      State.reset.busy = false ∧ State.reset.mode = .uninit := by
  decide

theorem witness_IndexOutsideTheStripIsInvalidArgument :
    ready.busy = false ∧ ready.mode = .ready ∧ ((-1 : Int) < 0 ∨ 7 < (-1 : Int)) ∧ ((8 : Int) < 0 ∨ 7 < (8 : Int)) := by
  decide

theorem witness_FirstFailingCheckDecides :
    (Instr.setBright 8 0).kind ≠ .wireSymbol ∧ ready.busy = false ∧
      faultOf (.setBright 8 0) ready = some .invalidArgument ∧
      faultOf (.setBright 8 0) State.reset = some .notReady ∧ faultOf .setup ready = some .alreadySetup ∧
      faultOf (.reserved80FF 255) State.reset = some .illegalCommand ∧ faultOf (.setBright 7 0) ready = none := by
  decide

theorem witness_FirstFailingCheckDecides_next : ∃ t, exec .clearAll ready = .next t := next_of (by decide +kernel)

theorem witness_FaultChangesOnlyStatus :
    Instr.setup.kind ≠ .wireSymbol ∧ ready.busy = false ∧ faultOf .setup ready = some .alreadySetup := by
  decide

theorem witness_SecondWriterIsRefused :
    Instr.clearAll.kind ≠ .wireSymbol ∧ (sending 0).busy = true ∧ Instr.latch.kind = .wireSymbol ∧
      ready.busy = false ∧ 73 ≤ (sending 73).pos.val ∧ (sending 840).pos.val < 841 ∧ (sending 72).pos.val < 73 ∧
      841 ≤ (sending 841).pos.val := by
  decide

theorem witness_ChanIsTruncateThenMask : 0 < (10 : Nat) := by decide

theorem witness_ValIsTheBinary64Number :
    ((0x7FF0000000000000#64).extractLsb' 52 11).toNat = 2047 ∧ ((0x8000000000000001#64).extractLsb' 52 11).toNat = 0 ∧
      ((0x7FEFFFFFFFFFFFFF#64).extractLsb' 52 11).toNat = 2046 ∧
      ((0x0010000000000000#64).extractLsb' 52 11).toNat = 1 := by
  decide

/-- 0.0 and 1.0, the ends of [0, 1]. -/
theorem witness_InRangeCodeIsFloorOfProduct :
    val 0x0000000000000000#64 = some 0 ∧ (0 : Int) ≤ unitsPerOne ∧
      val 0x3FF0000000000000#64 = some (unitsPerOne : Int) := by
  decide +kernel

theorem witness_InRangeTableOfTheExactProduct : val 0x3FE0000000000000#64 = some (2 ^ 1073) ∧
    (0 : Int) ≤ 2 ^ 1073 ∧ (2 ^ 1073 : Int) ≤ unitsPerOne ∧ 30 ≤ (30 : Nat) := by
  decide +kernel

theorem witness_RoundedProductGivesTheSameOrNextCode : val 0x3FE0000000000000#64 = some (2 ^ 1073) ∧
    (0 : Int) ≤ 2 ^ 1073 ∧ (2 ^ 1073 : Int) ≤ unitsPerOne := by
  decide +kernel

/-- -0.5 and 2.0, a NaN, and an overflowing product. -/
theorem witness_OutOfRangeCodeIsTruncatedAndWraps :
    val 0xBFE0000000000000#64 = some (-(2 ^ 1073)) ∧ (-(2 ^ 1073) : Int) < 0 ∧
      mul31 .exact (-(2 ^ 1073)) = some (-(31 * 2 ^ 1073)) ∧ val 0x4000000000000000#64 = some (2 ^ 1075) ∧
      (unitsPerOne : Int) < 2 ^ 1075 ∧ mul31 .ieee (2 ^ 1075) = some (31 * 2 ^ 1075) ∧
      Env.reset.cfg.oor = .truncMod32 ∧ val 0x7FF8000000000000#64 = none ∧
      val 0x7FEFFFFFFFFFFFFF#64 = some (2 ^ 2098 - 2 ^ 2045) ∧ mul31 .ieee (2 ^ 2098 - 2 ^ 2045) = none := by
  decide +kernel

theorem witness_EventAtEachPosition : 0 < 72 ∧ 71 < 72 ∧ 0 < 32 ∧ 31 < 32 := by decide

theorem witness_DataBitOfEachCell : 0 ≤ 7 ∧ 7 ≤ 7 := by decide

theorem witness_FirstSendMayLoseOneEdge :
    (Lines.mk (none : Option Bool) (some true)).clk = some true ∧ sent.h = bothOk ∧
      sent.W = [white].flatMap sendEvents :=
  ⟨rfl, rfl, (List.append_nil _).symm⟩

theorem witness_PinsAreLowBetweenSends :
    sent.Inv ∧ sent.PinInv ∧ sent.TraceInv ∧ sent.busy = false ∧ sent.h.get .dat = .ok ∧ sent.h.get .clk = .ok ∧
      sent.W ≠ [] :=
  ⟨inv_sent, pinInv_sent, traceInv_sent, rfl, rfl, rfl, by decide +kernel⟩

theorem witness_StepKeepsTheInvariants :
    (sendingAt 913).Inv ∧ (∃ t, step (sendingAt 913) = .next t) ∧ starting.Inv ∧ ∃ t, step starting = .next t :=
  ⟨inv_sendingAt 913, next_of (by decide +kernel), inv_reset _, next_of (by decide +kernel)⟩

theorem witness_StepKeepsPinsAtTheLastWrite :
    (sendingAt 0).Inv ∧ (sendingAt 0).PinInv ∧ (∃ t, step (sendingAt 0) = .next t) ∧
      starting.Inv ∧ starting.PinInv ∧ ∃ t, step starting = .next t :=
  ⟨inv_sendingAt 0, pinInv_sending, next_of (by decide +kernel), inv_reset _, pinInv_reset _,
    next_of (by decide +kernel)⟩

theorem witness_StepKeepsTheTraceWholeSends :
    (sendingAt 913).Inv ∧ (sendingAt 913).TraceInv ∧ ∃ t, step (sendingAt 913) = .next t :=
  ⟨inv_sendingAt 913, traceInv_sendingAt 913, next_of (by decide +kernel)⟩

theorem witness_StepKeepsTheLogTheFailedLines :
    starting.Inv ∧ starting.LogInv ∧ ∃ t, step starting = .next t :=
  ⟨inv_reset _, rfl, next_of (by decide +kernel)⟩

theorem witness_InvariantStatesGoOn : (sendingAt 913).Inv ∧ sent.Inv ∧ starting.Inv :=
  ⟨inv_sendingAt 913, inv_sent, inv_reset _⟩

theorem witness_OnlyResetUndoesReadyAndFaults :
    resetNow starting = false ∧ (∃ t, step starting = .next t ∧ t.mode ≠ starting.mode) ∧
      resetNow ready = false ∧ ready.mode = .ready ∧ ∃ t, step ready = .next t := by
  refine ⟨rfl, ?_, rfl, rfl, next_of (by decide +kernel)⟩
  obtain ⟨t, ht⟩ : ∃ t, step starting = .next t := next_of (by decide +kernel)
  refine ⟨t, ht, fun h => ?_⟩
  have hm : after (step starting) State.mode = some .ready := by decide +kernel
  rw [ht] at hm
  cases hm.symm.trans (congrArg some h)

theorem witness_OnlyASendWritesTheLines :
    resetNow starting = false ∧ starting.busy = false ∧ ∃ t, step starting = .next t :=
  ⟨rfl, rfl, next_of (by decide +kernel)⟩

theorem witness_SendFreezesTheRest :
    resetNow (sendingAt 0) = false ∧ (sendingAt 0).busy = true ∧ (∃ t, step (sendingAt 0) = .next t) ∧
      (sendingAt 913).busy = true ∧ (sendingAt 913).pos.val = 913 ∧ ∃ t, step (sendingAt 913) = .next t :=
  ⟨rfl, rfl, next_of (by decide +kernel), rfl, rfl, next_of (by decide +kernel)⟩

theorem witness_SetAllIsEightSetPixels :
    ready.busy = false ∧ ready.mode = .ready ∧ enc5 ready.env.cfg 0x3FE0000000000000#64 = some 15 := by
  decide +kernel

theorem witness_ClearAllIsEightSetPixelKs : ready.busy = false ∧ ready.mode = .ready := by decide

theorem witness_SetBrightAndSetPixelKAreSetPixel :
    ready.busy = false ∧ ready.mode = .ready ∧ (ready.slot 7).isSome = true := by
  decide

end Sys2Proof.Machine.Slice0
end

section
/-! PROOFS. The scope of the model: a step of the idle block on a command word (R10, R75, R207). -/

namespace Sys2Proof.Machine

/-- With a command word at the head of the host's actions, its decoded instruction is fetched and the word is taken. -/
theorem fetchAction_command {s : State} {cw : BitVec 200} {rest : List HostAction}
    (hp : s.env.port = .command cw :: rest) : fetchAction s = .run (decode cw) (setPort rest s) := by
  simp only [fetchAction, hp]

/-- A step of the idle block runs the head command after both inputs, the reset's and the host's, have moved on. -/
theorem step_command {s : State} {cw : BitVec 200} {rest : List HostAction} (hr : resetNow s = false)
    (hb : s.busy = false) (hp : s.env.port = .command cw :: rest) :
    step s = exec (decode cw) (setPort rest (tickReset s)) := by
  have hf : fetch s = .run (decode cw) (setPort rest (tickReset s)) :=
    (fetch_idle s hr hb).trans (fetchAction_command (s := tickReset s) hp)
  simp only [step, hf]

/-- Settles O3: the idle step on a command word, with the two moves of the inputs written as one update of `env`. -/
theorem stepRunsTheHeadCommand : Obligations.StepRunsTheHeadCommand :=
  fun _ _ _ hr hb hp => step_command hr hb hp

end Sys2Proof.Machine
end

section
/-! PROOFS. What a step may do to the block, as one inductive relation, and the invariants of 10_state that every step
keeps (R25, R29, R30, R33). -/

namespace Sys2Proof.Machine

variable {s t : State}

/-! ## The serializer step, field by field -/

section Serialize

variable (e : Event) (s : State)

@[simp] theorem serialize_mode : (serialize e s).mode = s.mode := by unfold serialize; split <;> simp
@[simp] theorem serialize_pixels : (serialize e s).pixels = s.pixels := by unfold serialize; split <;> simp
@[simp] theorem serialize_h : (serialize e s).h = s.h := by unfold serialize; split <;> simp
@[simp] theorem serialize_pin : (serialize e s).pin = (lineWrite e s).pin := by unfold serialize; split <;> simp
@[simp] theorem serialize_faults : (serialize e s).faults = s.faults := by unfold serialize; split <;> simp
@[simp] theorem serialize_W : (serialize e s).W = s.W ++ [e] := by unfold serialize; split <;> simp
@[simp] theorem serialize_log : (serialize e s).log = s.log := by unfold serialize; split <;> simp
@[simp] theorem slot_serialize (i : Fin 8) : (serialize e s).slot i = s.slot i := by simp [State.slot]

@[simp] theorem serialize_env_port : (serialize e s).env.port = s.env.port := by unfold serialize; split <;> simp
@[simp] theorem serialize_env_acq : (serialize e s).env.acq = s.env.acq := by unfold serialize; split <;> simp
@[simp] theorem serialize_env_draws : (serialize e s).env.draws = s.env.draws := by unfold serialize; split <;> simp

/-- After position 913 the send has ended with `OK`; before it the position has moved on by one (R158, R159). -/
theorem serialize_progress :
    (s.pos.val = 913 ∧ (serialize e s).busy = false ∧ (serialize e s).pos = 0 ∧ (serialize e s).last = .ok) ∨
    (s.pos.val ≠ 913 ∧ (serialize e s).busy = true ∧ (serialize e s).pos.val = s.pos.val + 1 ∧
      (serialize e s).last = s.last) := by
  by_cases hp : s.pos = 913
  · rw [serialize_last s e hp]
    exact .inl ⟨congrArg Fin.val hp, rfl, rfl, rfl⟩
  · have hv : s.pos.val ≠ 913 := fun h => hp (Fin.ext h)
    have hlt := s.pos.isLt
    rw [serialize_step s e hp]
    refine .inr ⟨hv, rfl, ?_, lineWrite_last s e⟩
    rw [setSerializer_pos, Fin.val_add, Fin.val_one]
    omega

end Serialize

/-! ## What a step may do -/

/-- Recording a code clears no sticky bit (R28). -/
theorem Faults.le_record (f : Faults) (c : Code) : f.le (f.record c) := by
  cases c <;> simp [Faults.le, Faults.record]

theorem Faults.le_refl (f : Faults) : f.le f := ⟨id, id, id, id⟩

/-- The log an acquisition of both lines adds, data first (R102). -/
def acquisitionLog (d c : OpenResult) : List LogEvent :=
  (if d = .failed then [.acqFail .dat] else []) ++ (if c = .failed then [.acqFail .clk] else [])

/-- What `SETUP` leaves in `Uninit` (R101 to R106): the two answers `d` and `c` are in the handles and in the log. -/
theorem setup_eq (s : State) :
    ∃ d c px env, (∀ j : Fin 8, (px[j] : Option Pixel).isSome = true) ∧
      complete .ok (((acquire .clk (acquire .dat s)).mapSlots fun _ => initPixel).setMode .ready) =
        { s with
          mode := .ready, pixels := px, h := { dat := d.handle, clk := c.handle }
          last := .ok, log := s.log ++ acquisitionLog d c, env := env } := by
  refine ⟨(openLine .dat s).1, (openLine .clk (acquire .dat s)).1, _,
    (complete .ok (acquire .clk (acquire .dat s))).env,
    fun j => congrArg Option.isSome (slot_mapSlots (acquire .clk (acquire .dat s)) (fun _ => initPixel) j), ?_⟩
  rw [acquire_eq (acquire .dat s) .clk, acquisitionLog, ← List.append_assoc, acquire_eq s .dat]
  rfl

/-- The moves of the block, reset apart: what each may change, and the states in which it is made. -/
inductive Move (s : State) : State → Prop
  /-- One line write of the send in progress; where the slots hold `p`, the write is R152's `ev`. -/
  | write (e : Event) (hb : s.busy = true) (he : ∀ p, s.Holds p → e = ev s.pos.val p) :
      Move s (serialize e (tickReset s))
  /-- Idling, a sample, a fault or a buffer command: only the buffer, `STATUS` and the inputs change. -/
  | buffer (px : Vector (Option Pixel) 8) (c : Code) (f : Faults) (env : Env) (hb : s.busy = false)
      (hf : s.faults.le f) (hu : s.mode = .uninit → px = s.pixels)
      (hp : ∀ j : Fin 8, (s.slot j).isSome = true → px[j].isSome = true) :
      Move s { s with pixels := px, last := c, faults := f, env := env }
  /-- `SETUP` in `Uninit`. -/
  | setup (px : Vector (Option Pixel) 8) (d c : OpenResult) (env : Env) (hb : s.busy = false)
      (hm : s.mode = .uninit) (hi : ∃ cw rest, s.env.port = .command cw :: rest ∧ decode cw = .setup)
      (hp : ∀ j : Fin 8, px[j].isSome = true) :
      Move s { s with
        mode := .ready, pixels := px, h := { dat := d.handle, clk := c.handle }
        last := .ok, log := s.log ++ acquisitionLog d c, env := env }
  /-- The admission of a send. -/
  | startSend (env : Env) (hb : s.busy = false) (hm : s.mode = .ready) :
      Move s { s with busy := true, pos := 0, env := env }

/-- A move that leaves everything but `STATUS` and the inputs. -/
theorem Move.quiet (c : Code) (f : Faults) (env : Env) (hb : s.busy = false) (hf : s.faults.le f) :
    Move s { s with last := c, faults := f, env := env } :=
  .buffer s.pixels c f env hb hf (fun _ => rfl) (fun _ h => h)

/-- The step of a send is the line write that `step_busy` names. -/
theorem move_of_serialize {e : Event} (hr : resetNow s = false) (hb : s.busy = true)
    (h : step s = .next (serialize e (tickReset s))) : Move s (serialize e (tickReset s)) := by
  refine .write e hb fun p hp => ?_
  have hs : serialize e (tickReset s) = serialize (ev s.pos.val p) (tickReset s) :=
    Host.Outcome.next.inj (h.symm.trans (step_busy s hr hb hp))
  have hW := congrArg State.W hs
  rw [serialize_W, serialize_W] at hW
  exact List.singleton_injective (List.append_cancel_left hW)

/-- The step of a command word at the head of the host's actions. -/
theorem move_of_command {cw : BitVec 200} {rest : List HostAction} (hq : s.env.port = .command cw :: rest)
    (h : exec (decode cw) (setPort rest (tickReset s)) = .next t) : Move s t := by
  obtain ⟨hb, hfault | hsetup | hbuffer | hsend⟩ := exec_next_cases (decode_kind cw) h
  · obtain ⟨c, -, rfl⟩ := hfault
    exact .quiet _ _ _ hb (Faults.le_record _ c)
  · obtain ⟨hi, hm, rfl⟩ := hsetup
    obtain ⟨d, c, px, env, hp, heq⟩ := setup_eq (setPort rest (tickReset s))
    rw [heq]
    exact .setup px d c env hb hm ⟨cw, rest, hq, hi⟩ hp
  · obtain ⟨hm, px, draws, rfl, hp⟩ := hbuffer
    refine .buffer px _ _ _ hb (Faults.le_refl _) (fun hu => ?_) hp
    exact nomatch hm.symm.trans hu
  · obtain ⟨-, hm, rfl⟩ := hsend
    exact .startSend _ hb hm

/-- Every step without reset is one of the moves. -/
theorem step_move (hr : resetNow s = false) (h : step s = .next t) : Move s t := by
  obtain hreset | ⟨-, hb, e, rfl⟩ | ⟨-, hb, -, rfl⟩ | ⟨-, hb, rest, -, rfl⟩ | ⟨-, -, cw, rest, hq, he⟩ :=
    step_next_cases h
  · exact absurd hreset.1 (by simp [hr])
  · exact move_of_serialize hr hb h
  · exact .quiet _ _ _ hb (Faults.le_refl _)
  · exact .quiet _ _ _ hb (Faults.le_refl _)
  · exact move_of_command hq he

/-- What holds after reset and after every move holds after every step. -/
theorem step_induction {P : State → Prop} (hreset : ∀ e, P (State.reset.setEnv e)) (hmove : Move s t → P t)
    (h : step s = .next t) : P t := by
  cases hr : resetNow s with
  | false => exact hmove (step_move hr h)
  | true =>
    obtain ⟨-, rfl⟩ | ⟨hr', -⟩ | ⟨hr', -⟩ | ⟨hr', -⟩ | ⟨hr', -⟩ := step_next_cases h
    · exact hreset _
    all_goals exact nomatch hr.symm.trans hr'

/-! ## R33 (a) to (e) -/

theorem inv_setEnv_reset (e : Env) : (State.reset.setEnv e).Inv where
  uninit _ := ⟨rfl, rfl, rfl, slot_reset⟩
  ready h := nomatch h
  busyReady h := nomatch h
  idlePos _ := rfl
  traceLength := ⟨0, rfl⟩

/-- A line that was acquired has a handle that works or a failed one (R24). -/
theorem OpenResult.handle_ok_or_failed (a : OpenResult) : a.handle = .ok ∨ a.handle = .failed := by
  cases a <;> simp [OpenResult.handle]

/-- A serializer step keeps the trace a number of whole sends and the position. -/
theorem serialize_traceLength (e : Event) (hs : ∃ n, s.W.length = 914 * n + s.pos.val) :
    ∃ n, (serialize e s).W.length = 914 * n + (serialize e s).pos.val := by
  obtain ⟨n, hn⟩ := hs
  rw [serialize_W, List.length_append, List.length_singleton]
  obtain ⟨h, -, hp, -⟩ | ⟨-, -, hp, -⟩ := serialize_progress e s
  · refine ⟨n + 1, ?_⟩
    rw [hp, Fin.val_zero]
    omega
  · exact ⟨n, by omega⟩

/-- A serializer step in `Ready` keeps R33. -/
theorem serialize_inv (e : Event) (hm : s.mode = .ready) (hs : s.Inv) : (serialize e s).Inv where
  uninit h := nomatch h.symm.trans ((serialize_mode e s).trans hm)
  ready _ := by simpa only [serialize_h, slot_serialize] using hs.ready hm
  busyReady _ := (serialize_mode e s).trans hm
  idlePos h := by
    obtain ⟨-, -, hp, -⟩ | ⟨-, hb, -⟩ := serialize_progress e s
    · exact hp
    · exact nomatch hb.symm.trans h
  traceLength := serialize_traceLength e hs.traceLength

/-- Every move keeps R33. -/
theorem Move.inv (hm : Move s t) (hs : s.Inv) : t.Inv := by
  cases hm with
  | write e hb =>
    have hs' : (tickReset s).Inv := ⟨hs.uninit, hs.ready, hs.busyReady, hs.idlePos, hs.traceLength⟩
    exact serialize_inv e (hs.busyReady hb) hs'
  | buffer px c f env hb hf hu hp =>
    refine ⟨fun h => ?_, fun h => ⟨(hs.ready h).1, fun j => hp j ((hs.ready h).2 j)⟩, hs.busyReady, hs.idlePos,
      hs.traceLength⟩
    obtain rfl := hu h
    exact hs.uninit h
  | setup px d c env hb hm hi hp =>
    refine ⟨fun h => (nomatch h), fun _ => ⟨fun l => ?_, hp⟩, fun _ => rfl, hs.idlePos, hs.traceLength⟩
    cases l with
    | dat => exact OpenResult.handle_ok_or_failed d
    | clk => exact OpenResult.handle_ok_or_failed c
  | startSend env hb hm =>
    refine ⟨fun h => (nomatch h.symm.trans hm), hs.ready, fun _ => hm, fun h => (nomatch h), ?_⟩
    obtain ⟨n, hn⟩ := hs.traceLength
    exact ⟨n, hs.idlePos hb ▸ hn⟩

/-- Settles O49: R33 holds after reset and every move keeps it. -/
theorem stepKeepsTheInvariants : Obligations.StepKeepsTheInvariants :=
  fun _ _ hs h => step_induction inv_setEnv_reset (fun hm => hm.inv hs) h

end Sys2Proof.Machine
end

section
/-! PROOFS. The line writes of a send, by the pseudocode and by position (42_send R150, R152). -/

namespace Sys2Proof.Machine

/-! ## Runs of indices -/

/-- A run of `a + b` indices is a run of `a` and then a run of `b`. -/
theorem map_range_add {α : Type} (f : Nat → α) (a b : Nat) :
    (List.range (a + b)).map f = (List.range a).map f ++ (List.range b).map fun u => f (a + u) := by
  rw [List.range_add, List.map_append, List.map_map]
  rfl

/-- `m` runs of `n` indices are one run. -/
theorem flatMap_finRange_map_range {α : Type} (n : Nat) (f : Nat → α) (m : Nat) :
    ((List.finRange m).flatMap fun i => (List.range n).map fun u => f (n * i.val + u)) =
      (List.range (n * m)).map f := by
  induction m with
  | zero => simp
  | succ m ih =>
    rw [Nat.mul_succ, map_range_add, ← ih, List.finRange_succ_last]
    simp [List.flatMap_map]

/-! ## The segments of a send -/

/-- A latch's writes by position (R153, R156). -/
theorem latchEvents_eq : latchEvents = (List.range 73).map latchEvent := by decide +kernel

/-- Byte `k` of the frame `f`, written most significant bit first, is its cells `8 k` to `8 k + 7` (R88, R154). -/
theorem writeByteEvents_slice (f : BitVec 32) (k : Fin 4) :
    writeByteEvents (f.extractLsb' (24 - 8 * k.val) 8) =
      (List.range 24).map fun u => frameEvent f (24 * k.val + u) := by
  match k with
  | 0 | 1 | 2 | 3 => simp [writeByteEvents, pulse, frameEvent, List.range_succ]

/-- The brightness byte is the top byte of the frame (R86, R87). -/
theorem frame_brightnessByte (p : Pixel) : p.frame.extractLsb' 24 8 = framePrefixByte ||| p.br.setWidth 8 := by
  have hbyte : ∀ v : BitVec 5, (0b111#3 ++ v : Byte) = framePrefixByte ||| v.setWidth 8 := by decide
  calc p.frame.extractLsb' 24 8
      = 0b111#3 ++ p.br :=
        (slice_high _ p.r 24 8 (by decide)).trans <| (slice_high _ p.g 16 8 (by decide)).trans <|
          (slice_high _ p.b 8 8 (by decide)).trans (slice_all _)
    _ = framePrefixByte ||| p.br.setWidth 8 := hbyte p.br

/-- The four bytes of a slot are the slices of its frame, from the top (R86, R87). -/
theorem pixelEvents_eq_slices (p : Pixel) :
    pixelEvents p =
      (List.finRange 4).flatMap fun k => writeByteEvents (p.frame.extractLsb' (24 - 8 * k.val) 8) := by
  obtain ⟨-, -, hb, hg, hr⟩ : _ ∧ _ ∧ p.frame.extractLsb' 16 8 = p.b ∧ p.frame.extractLsb' 8 8 = p.g ∧
    p.frame.extractLsb' 0 8 = p.r := frameWord_fields p.br p.b p.g p.r
  rw [pixelEvents, ← frame_brightnessByte, ← hb, ← hg, ← hr]
  rfl

/-- A slot's writes are the 96 events of its frame (R154). -/
theorem pixelEvents_eq (p : Pixel) : pixelEvents p = (List.range 96).map (frameEvent p.frame) := by
  simp only [pixelEvents_eq_slices, writeByteEvents_slice]
  exact flatMap_finRange_map_range 24 _ 4

/-! ## The whole send -/

/-- The start latch (R153). -/
theorem ev_startLatch (p : Fin 8 → Pixel) {k : Nat} (hk : k < 73) : ev k p = latchEvent k := by
  simp only [ev, segmentOf, if_pos hk]

/-- The end latch (R156). -/
theorem ev_endLatch (p : Fin 8 → Pixel) (k : Nat) : ev (841 + k) p = latchEvent k := by
  have h1 : ¬ 841 + k < 73 := by omega
  have h2 : ¬ 841 + k < 841 := by omega
  simp only [ev, segmentOf, if_neg h1, if_neg h2, Nat.add_sub_cancel_left]

/-- The events of a frame repeat every 96 (R154). -/
theorem frameEvent_period (f : BitVec 32) (i u : Nat) : frameEvent f (96 * i + u) = frameEvent f u := by
  have h1 : (96 * i + u) / 3 % 32 = u / 3 % 32 := by omega
  have h2 : (96 * i + u) % 3 = u % 3 := by omega
  simp only [frameEvent, h1, h2]

/-- Event `u` of slot `i` (R154). -/
theorem ev_slot (p : Fin 8 → Pixel) (i : Fin 8) {u : Nat} (hu : u < 96) :
    ev (73 + (96 * i.val + u)) p = frameEvent (p i).frame u := by
  have hi := i.isLt
  have h1 : ¬ 73 + (96 * i.val + u) < 73 := by omega
  have h2 : 73 + (96 * i.val + u) < 841 := by omega
  have hslot : slotOf (73 + (96 * i.val + u) - 73) = i := slotOf_frames (by omega) (by omega)
  rw [Nat.add_sub_cancel_left] at hslot
  simp only [ev, segmentOf, if_neg h1, if_pos h2, Nat.add_sub_cancel_left, hslot, frameEvent_period]

/-- The pseudocode's writes are the writes by position, in order (R150, R152). -/
theorem sendEvents_eq_map_ev (p : Fin 8 → Pixel) : sendEvents p = (List.range 914).map fun pos => ev pos p := by
  have hstart : latchEvents = (List.range 73).map fun k => ev k p := by
    rw [latchEvents_eq]
    exact List.map_congr_left fun k hk => (ev_startLatch p (List.mem_range.mp hk)).symm
  have hend : latchEvents = (List.range 73).map fun k => ev (841 + k) p := by
    rw [latchEvents_eq]
    exact List.map_congr_left fun k _ => (ev_endLatch p k).symm
  have hslot (i : Fin 8) : pixelEvents (p i) = (List.range 96).map fun u => ev (73 + (96 * i.val + u)) p := by
    rw [pixelEvents_eq]
    exact List.map_congr_left fun u hu => (ev_slot p i (List.mem_range.mp hu)).symm
  have hslots : (List.finRange 8).flatMap (fun i => pixelEvents (p i)) =
      (List.range 768).map fun n => ev (73 + n) p := by
    simp only [hslot]
    exact flatMap_finRange_map_range 96 (fun n => ev (73 + n) p) 8
  calc sendEvents p
      = (List.range 73).map (fun k => ev k p) ++ (List.range 768).map (fun n => ev (73 + n) p) ++
          (List.range 73).map (fun k => ev (841 + k) p) := by rw [← hstart, ← hslots, ← hend, sendEvents]
    _ = (List.range 914).map fun pos => ev pos p := by
        rw [← map_range_add (fun pos => ev pos p) 73 768, ← map_range_add (fun pos => ev pos p) 841 73]

theorem sendEvents_length (p : Fin 8 → Pixel) : (sendEvents p).length = 914 := by
  rw [sendEvents_eq_map_ev, List.length_map, List.length_range]

/-- One more write of a send in progress is the event at its position (R158). -/
theorem sendEvents_take_succ (p : Fin 8 → Pixel) {k : Nat} (hk : k < 914) :
    (sendEvents p).take (k + 1) = (sendEvents p).take k ++ [ev k p] := by
  have hl : k < (sendEvents p).length := (sendEvents_length p).symm ▸ hk
  rw [List.take_succ_eq_append_getElem hl]
  simp only [sendEvents_eq_map_ev, List.getElem_map, List.getElem_range]

end Sys2Proof.Machine
end

section
/-! PROOFS. What every step keeps besides R33: the pins (R25, R151), the trace (R29, R61 (d)) and the log (R30, R102); then
that no run from reset stops (R195, R199). -/

namespace Sys2Proof.Machine

variable {s t : State}

/-! ## The pins -/

theorem pinInv_setEnv_reset (e : Env) : (State.reset.setEnv e).PinInv := by
  intro l
  cases l <;> rfl

/-- One more write is the last write to its own line, and no write to the other. -/
theorem lastWrite_concat (l : Line) (es : List Event) (e : Event) :
    lastWrite l (es ++ [e]) = if e.1 = l then some e.2 else lastWrite l es := by
  by_cases he : e.1 = l <;> simp [lastWrite, he]

/-- A line write keeps the pins at the last level written through a working handle. -/
theorem lineWrite_pinInv (e : Event) (hs : s.PinInv) : (lineWrite e s).PinInv := by
  intro l
  have hl := hs l
  rw [lineWrite_pin, lineWrite_h, lineWrite_W, lastWrite_concat]
  by_cases he : e.1 = l
  · subst he
    by_cases hok : s.h.get e.1 = .ok
    · simp only [hok, if_true, Lines.get_set_self]
    · simpa only [hok, if_false] using hl
  · rw [if_neg he, ← hl]
    split
    · exact Lines.get_set_ne _ _ (Ne.symm he)
    · rfl

/-- Every move keeps the pins at the last level written through a working handle. Before `SETUP` nothing is written, so
acquiring a line leaves its pin unspecified. -/
theorem Move.pinInv (hm : Move s t) (hs : s.Inv) (hp : s.PinInv) : t.PinInv := by
  cases hm with
  | write e hb =>
    intro l
    have hl := lineWrite_pinInv (s := tickReset s) e hp l
    rw [lineWrite_h, lineWrite_W] at hl
    rw [serialize_pin, serialize_h, serialize_W, hl]
  | buffer => exact hp
  | setup px d c env hb hm =>
    obtain ⟨hh, -, hW, -⟩ := hs.uninit hm
    intro l
    have hl : s.pin.get l = none := by
      rw [hp l, hh]
      cases l <;> rfl
    show s.pin.get l = if _ then lastWrite l s.W else none
    rw [hl, hW]
    exact (ite_self none).symm
  | startSend => exact hp

/-- Settles O50: the pin invariant holds after reset and every move keeps it. -/
theorem stepKeepsPinsAtTheLastWrite : Obligations.StepKeepsPinsAtTheLastWrite :=
  fun _ _ hs hp h => step_induction pinInv_setEnv_reset (fun hm => hm.pinInv hs hp) h

/-! ## The trace -/

theorem traceInv_setEnv_reset (e : Env) : (State.reset.setEnv e).TraceInv :=
  ⟨[], fun _ => initPixel, rfl, fun h => nomatch h⟩

/-- A buffer with a value in every slot holds some pixels. -/
theorem exists_holds (h : ∀ i, (s.slot i).isSome = true) : ∃ p, s.Holds p :=
  ⟨fun i => (s.slot i).get (h i), fun i => (Option.some_get (h i)).symm⟩

/-- A state that meets R33 and is `Ready` holds some pixels (R33 (b)). -/
theorem State.Inv.holds (hs : s.Inv) (hm : s.mode = .ready) : ∃ p, s.Holds p := exists_holds (hs.ready hm).2

/-- Between sends the trace is whole sends, whatever the buffer is. -/
theorem traceInv_of_idle (hb : s.busy = false) {sent : List (Fin 8 → Pixel)} {p : Fin 8 → Pixel}
    (hW : s.W = sent.flatMap sendEvents ++ (sendEvents p).take s.pos.val) : s.TraceInv :=
  ⟨sent, p, hW, fun h => nomatch hb.symm.trans h⟩

/-- The event at the position is the next one of the send in progress; after position 913 that send is a whole one. -/
theorem serialize_traceInv {sent : List (Fin 8 → Pixel)} {p : Fin 8 → Pixel} (hp : s.Holds p)
    (hW : s.W = sent.flatMap sendEvents ++ (sendEvents p).take s.pos.val) :
    (serialize (ev s.pos.val p) s).TraceInv := by
  have hnext : (serialize (ev s.pos.val p) s).W =
      sent.flatMap sendEvents ++ (sendEvents p).take (s.pos.val + 1) := by
    rw [serialize_W, hW, List.append_assoc, sendEvents_take_succ p s.pos.isLt]
  obtain ⟨hlast, hb, hpos, -⟩ | ⟨-, -, hpos, -⟩ := serialize_progress (ev s.pos.val p) s
  · refine traceInv_of_idle hb (sent := sent ++ [p]) (p := p) ?_
    have hfull : (sendEvents p).take (913 + 1) = sendEvents p := List.take_of_length_le (sendEvents_length p).le
    rw [hpos, hnext, hlast, hfull]
    simp
  · exact ⟨sent, p, by rw [hnext, hpos], fun _ i => (slot_serialize _ s i).trans (hp i)⟩

/-- Every move keeps the trace whole sends and the send in progress. -/
theorem Move.traceInv (hm : Move s t) (hs : s.Inv) (ht : s.TraceInv) : t.TraceInv := by
  obtain ⟨sent, p, hW, hp⟩ := ht
  cases hm with
  | write e hb he =>
    rw [he p (hp hb)]
    exact serialize_traceInv (s := tickReset s) (hp hb) hW
  | buffer px c f env hb => exact traceInv_of_idle hb hW
  | setup px d c env hb => exact traceInv_of_idle hb hW
  | startSend env hb hm =>
    obtain ⟨q, hq⟩ := hs.holds hm
    rw [hs.idlePos hb] at hW
    exact ⟨sent, q, hW, fun _ => hq⟩

/-- Settles O51: the trace invariant holds after reset and every move keeps it; a line write is the event at the
position, and the admission of a send begins with no event of it. -/
theorem stepKeepsTheTraceWholeSends : Obligations.StepKeepsTheTraceWholeSends :=
  fun _ _ hs ht h => step_induction traceInv_setEnv_reset (fun hm => hm.traceInv hs ht) h

/-! ## The log -/

theorem logInv_setEnv_reset (e : Env) : (State.reset.setEnv e).LogInv := rfl

theorem OpenResult.handle_eq_failed (a : OpenResult) : a.handle = .failed ↔ a = .failed := by
  cases a <;> simp [OpenResult.handle]

/-- Every move keeps the log: `SETUP` finds it empty, and else neither it nor a handle changes. -/
theorem Move.logInv (hm : Move s t) (hs : s.Inv) (hl : s.LogInv) : t.LogInv := by
  cases hm with
  | write e =>
    show (serialize e (tickReset s)).log = _
    rw [serialize_log, serialize_h]
    exact hl
  | buffer => exact hl
  | setup px d c env hb hm =>
    obtain ⟨hh, -⟩ := hs.uninit hm
    have hempty : s.log = [] := by
      rw [hl, hh]
      rfl
    simp only [State.LogInv, hempty, acquisitionLog, OpenResult.handle_eq_failed, List.nil_append]
  | startSend => exact hl

/-- Settles O52: the log invariant holds after reset and every move keeps it. -/
theorem stepKeepsTheLogTheFailedLines : Obligations.StepKeepsTheLogTheFailedLines :=
  fun _ _ hs hl h => step_induction logInv_setEnv_reset (fun hm => hm.logInv hs hl) h

/-- Settles O48: the four invariants, each by the reset values it speaks of. -/
theorem invariantsHoldAtReset : Obligations.InvariantsHoldAtReset :=
  fun e => ⟨inv_setEnv_reset e, pinInv_setEnv_reset e, traceInv_setEnv_reset e, logInv_setEnv_reset e⟩

/-! ## No step stops -/

theorem goesOn_next (t : State) : goesOn (.next t) := ⟨t, rfl⟩

/-- Where every check passes the command decides; where one fails it completes with a fault (R196). -/
theorem goesOn_whenReady {k : Out} (hk : s.mode = .ready → goesOn k) : goesOn (whenReady s k) := by
  cases hm : s.mode with
  | uninit => exact ⟨_, whenReady_uninit s hm⟩
  | ready =>
    rw [whenReady_ready s hm]
    exact hk hm

theorem goesOn_whenUninit {k : Out} (hk : goesOn k) : goesOn (whenUninit s k) := by
  cases hm : s.mode with
  | uninit => rwa [whenUninit_uninit s hm]
  | ready => exact ⟨_, whenUninit_ready s hm⟩

theorem goesOn_atIndex {idx : Int} {k : Fin 8 → Out} (hk : ∀ i, goesOn (k i)) : goesOn (atIndex idx s k) := by
  unfold atIndex
  cases slotIndex idx with
  | none => exact goesOn_next _
  | some i => exact hk i

/-- A command goes on between sends when, in `Ready`, every slot has a value: it does or it faults (R195). Only `SETBRIGHT`
needs the slot's value. -/
theorem exec_goesOn {i : Instr} (hk : i.kind ≠ .wireSymbol) (hb : s.busy = false)
    (hp : s.mode = .ready → ∀ j, (s.slot j).isSome = true) : goesOn (exec i s) := by
  cases i with
  | latch | pixelFrame => exact absurd rfl hk
  | reserved00 | reserved080F | reserved101F | reserved203F | reserved407F | reserved80FF =>
    exact ⟨_, whenIdle_idle s hb⟩
  | setup =>
    rw [exec, execSetup, whenIdle_idle s hb]
    exact goesOn_whenUninit (goesOn_next _)
  | setPixel | setPixelK =>
    simp only [exec, execSetPixel, execSetPixelK, whenIdle_idle s hb]
    exact goesOn_whenReady fun _ => goesOn_atIndex fun _ => goesOn_next _
  | setAll | clearAll | send =>
    simp only [exec, execSetAll, execClearAll, execSend, whenIdle_idle s hb]
    exact goesOn_whenReady fun _ => goesOn_next _
  | setBright =>
    rw [exec, execSetBright, whenIdle_idle s hb]
    refine goesOn_whenReady fun hm => goesOn_atIndex fun j => ?_
    obtain ⟨p, hj⟩ := Option.isSome_iff_exists.mp (hp hm j)
    simp only [hj]
    exact goesOn_next _

/-- A step that takes the reset (R221). -/
theorem step_reset (hr : resetNow s = true) : step s = .next (takeReset (tickReset s)) := by
  simp only [step, fetch_reset s hr]

/-- Between sends, a step goes on where the host's next command would. -/
theorem step_idle_goesOn (hr : resetNow s = false) (hb : s.busy = false)
    (hp : s.mode = .ready → ∀ j, (s.slot j).isSome = true) : goesOn (step s) := by
  cases hq : s.env.port with
  | nil =>
    have hq' : (tickReset s).env.port = [] := hq
    simp only [step, fetch_idle s hr hb, fetchAction, hq']
    exact goesOn_next _
  | cons a rest =>
    cases a with
    | command cw =>
      rw [step_command hr hb hq]
      exact exec_goesOn (decode_kind cw) hb hp
    | sample =>
      have hq' : (tickReset s).env.port = .sample :: rest := hq
      simp only [step, fetch_idle s hr hb, fetchAction, hq']
      exact goesOn_next _

/-- Settles O53: a reset is taken, a send's slots have values by R33 (b) and (c), and between sends a command does or
faults. -/
theorem invariantStatesGoOn : Obligations.InvariantStatesGoOn := by
  intro s hs
  cases hr : resetNow s with
  | true => exact ⟨_, step_reset hr⟩
  | false =>
    cases hb : s.busy with
    | true =>
      obtain ⟨p, hp⟩ := hs.holds (hs.busyReady hb)
      exact ⟨_, step_busy s hr hb hp⟩
    | false => exact step_idle_goesOn hr hb fun hm => (hs.ready hm).2

/-! ## Runs -/

/-- The four invariants together. -/
structure State.Safe (s : State) : Prop where
  inv : s.Inv
  pins : s.PinInv
  trace : s.TraceInv
  log : s.LogInv

theorem State.Safe.step (hs : s.Safe) (h : Machine.step s = .next t) : t.Safe where
  inv := stepKeepsTheInvariants s t hs.inv h
  pins := stepKeepsPinsAtTheLastWrite s t hs.inv hs.pins h
  trace := stepKeepsTheTraceWholeSends s t hs.inv hs.trace h
  log := stepKeepsTheLogTheFailedLines s t hs.inv hs.log h

/-- A run of one more step. -/
theorem run_succ (k : Nat) (h : step s = .next t) :
    Host.Core.run Sys2Proof.core (k + 1) s = Host.Core.run Sys2Proof.core k t := by
  have h' : Sys2Proof.core.step s = .next t := h
  simp only [Host.Core.run, h']

/-- From a state that meets the four invariants a run goes on, to a state that meets them. -/
theorem State.Safe.run (hs : s.Safe) (k : Nat) : ∃ t, Host.Core.run Sys2Proof.core k s = .next t ∧ t.Safe := by
  induction k generalizing s with
  | zero => exact ⟨s, rfl, hs⟩
  | succ k ih =>
    obtain ⟨t, ht⟩ := invariantStatesGoOn s hs.inv
    rw [run_succ k ht]
    exact ih (hs.step ht)

/-- Settles O54: the reset state meets the four invariants, so the run goes on and its state meets them. -/
theorem everyRunGoesOn : Obligations.EveryRunGoesOn := by
  intro e k
  obtain ⟨hi, hp, ht, hl⟩ := invariantsHoldAtReset e
  obtain ⟨t, hrun, hsafe⟩ := State.Safe.run ⟨hi, hp, ht, hl⟩ k
  exact ⟨t, hrun, hsafe.inv, hsafe.pins, hsafe.trace, hsafe.log⟩

end Sys2Proof.Machine
end

section
/-! PROOFS. What a step leaves as it was: outside a send the lines, during one the rest of the block, and sticky bits and
`Ready` but for reset; then the bits of `STATUS`, and `SETBRIGHT` of an undefined slot. -/

namespace Sys2Proof.Machine

variable {s t : State}

/-! ## Steps without reset -/

theorem Move.faults_le (hm : Move s t) : s.faults.le t.faults := by
  cases hm with
  | write e =>
    rw [serialize_faults]
    exact Faults.le_refl _
  | buffer px c f env hb hf => exact hf
  | setup => exact Faults.le_refl _
  | startSend => exact Faults.le_refl _

/-- `Ready` and its handles stay. -/
theorem Move.ready_stays (hm : Move s t) (hr : s.mode = .ready) : t.mode = .ready ∧ t.h = s.h := by
  cases hm with
  | write e => exact ⟨(serialize_mode e _).trans hr, serialize_h e _⟩
  | buffer => exact ⟨hr, rfl⟩
  | setup px d c env hb hu => exact nomatch hr.symm.trans hu
  | startSend => exact ⟨hr, rfl⟩

/-- Only `SETUP` changes the mode. -/
theorem Move.setup_of_mode_ne (hm : Move s t) (hne : t.mode ≠ s.mode) :
    ∃ cw rest, s.env.port = .command cw :: rest ∧ decode cw = .setup := by
  cases hm with
  | write e => exact absurd (serialize_mode e (tickReset s)) hne
  | buffer => exact absurd rfl hne
  | setup px d c env hb hu hi => exact hi
  | startSend => exact absurd rfl hne

/-- Settles O55: each of the three parts is true of every move. -/
theorem onlyResetUndoesReadyAndFaults : Obligations.OnlyResetUndoesReadyAndFaults := by
  intro s t hr h
  have hm := step_move hr h
  exact ⟨hm.faults_le, hm.ready_stays, hm.setup_of_mode_ne⟩

/-- Settles O56: the one move that writes a line is the serializer's. -/
theorem onlyASendWritesTheLines : Obligations.OnlyASendWritesTheLines := by
  intro s t hr hb h
  cases step_move hr h with
  | write e hbusy => exact nomatch hb.symm.trans hbusy
  | buffer => exact ⟨rfl, rfl⟩
  | setup => exact ⟨rfl, rfl⟩
  | startSend => exact ⟨rfl, rfl⟩

/-- A step of a send is a serializer step after the reset input has moved on. -/
theorem step_send (hr : resetNow s = false) (hb : s.busy = true) (h : step s = .next t) :
    ∃ e, t = serialize e (tickReset s) := by
  cases step_move hr h with
  | write e => exact ⟨e, rfl⟩
  | buffer px c f env hidle => exact nomatch hb.symm.trans hidle
  | setup px d c env hidle => exact nomatch hb.symm.trans hidle
  | startSend env hidle => exact nomatch hb.symm.trans hidle

/-- Settles O57: the serializer step, field by field. -/
theorem sendFreezesTheRest : Obligations.SendFreezesTheRest := by
  intro s t hr hb h
  obtain ⟨e, rfl⟩ := step_send hr hb h
  refine ⟨⟨e, serialize_W e _⟩, serialize_pixels e _, serialize_mode e _, serialize_h e _, serialize_log e _,
    serialize_faults e _, serialize_env_port e _, serialize_env_acq e _, serialize_env_draws e _, ?_⟩
  obtain ⟨hp, hend⟩ | ⟨hp, hnext⟩ := serialize_progress e (tickReset s)
  · exact (if_pos hp).mpr hend
  · exact (if_neg hp).mpr hnext

/-! ## `STATUS` -/

/-- A bit of a slice is a bit of the word. -/
theorem getLsbD_of_slice {w n i : Nat} {x : BitVec w} {y : BitVec n} (h : x.extractLsb' i n = y) {k : Nat}
    (hk : k < n) : x.getLsbD (i + k) = y.getLsbD k := by
  simp [← h, hk]

/-- The eight fields of `STATUS` (R28). -/
theorem status_slices (s : State) :
    s.status.extractLsb' 0 1 = BitVec.ofBool (s.mode == .ready) ∧
    s.status.extractLsb' 1 1 = BitVec.ofBool s.busy ∧
    s.status.extractLsb' 2 1 = BitVec.ofBool (s.h.dat == .failed) ∧
    s.status.extractLsb' 3 1 = BitVec.ofBool (s.h.clk == .failed) ∧
    s.status.extractLsb' 4 3 = s.last.bits ∧ s.status.extractLsb' 7 1 = 0#1 ∧
    s.status.extractLsb' 8 4 = s.faults.bits ∧ s.status.extractLsb' 12 4 = 0#4 := by
  unfold State.status
  refine ⟨?_, ?_, ?_, ?_, ?_, ?_, ?_, ?_⟩
  · rw [slice_low, slice_all]; decide
  · rw [slice_high, slice_low, slice_all] <;> decide
  · rw [slice_high, slice_high, slice_low, slice_all] <;> decide
  · rw [slice_high, slice_high, slice_high, slice_low, slice_all] <;> decide
  · rw [slice_high, slice_high, slice_high, slice_high, slice_low, slice_all] <;> decide
  · rw [slice_high, slice_high, slice_high, slice_high, slice_high, slice_low, slice_all] <;> decide
  · rw [slice_high, slice_high, slice_high, slice_high, slice_high, slice_high, slice_low, slice_all] <;> decide
  · rw [slice_high, slice_high, slice_high, slice_high, slice_high, slice_high, slice_high, slice_all] <;> decide

/-- The sticky bits in `STATUS[11:8]`, `F_ILLEGAL` the least significant (R28). -/
theorem faults_bits (f : Faults) :
    f.bits.getLsbD 0 = f.illegal ∧ f.bits.getLsbD 1 = f.notReady ∧ f.bits.getLsbD 2 = f.already ∧
      f.bits.getLsbD 3 = f.invArg := by
  obtain ⟨a, b, c, d⟩ := f
  revert a b c d
  decide

/-- Settles O6: the fields of `STATUS`, read bit by bit. -/
theorem statusBitsAreTheirViews : Obligations.StatusBitsAreTheirViews := by
  intro s
  obtain ⟨hmode, hbusy, hdat, hclk, hlast, hgap, hfaults, htop⟩ := status_slices s
  obtain ⟨hillegal, hnotReady, halready, hinvArg⟩ := faults_bits s.faults
  have hone (b : Bool) : (BitVec.ofBool b).getLsbD 0 = b := by cases b <;> rfl
  refine ⟨(getLsbD_of_slice hmode one_pos).trans (hone _), (getLsbD_of_slice hbusy one_pos).trans (hone _),
    (getLsbD_of_slice hdat one_pos).trans (hone _), (getLsbD_of_slice hclk one_pos).trans (hone _), ?_,
    getLsbD_of_slice hgap one_pos, (getLsbD_of_slice hfaults (k := 0) (by decide)).trans hillegal,
    (getLsbD_of_slice hfaults (k := 1) (by decide)).trans hnotReady,
    (getLsbD_of_slice hfaults (k := 2) (by decide)).trans halready,
    (getLsbD_of_slice hfaults (k := 3) (by decide)).trans hinvArg, htop⟩
  rw [hlast]
  cases s.last <;> rfl

/-! ## `SETBRIGHT` of an undefined slot -/

/-- Settles O18: every check passes, and the slot it then reads has no value. -/
theorem setBrightOfAnUndefinedSlotStops : Obligations.SetBrightOfAnUndefinedSlotStops := by
  intro i bf s hb hm hi
  simp only [exec, execSetBright, whenIdle_idle s hb, whenReady_ready s hm, atIndex, slotIndex_val, hi]

end Sys2Proof.Machine
end

section
/-! PROOFS. The command word's byte transport (20_memory R55), and what only a second writer could execute (R62). -/

namespace Sys2Proof

/-! ## The bytes of a command word -/

/-- One more byte is one more base-256 digit. -/
theorem bytesNat_concat (bs : List Byte) (b : Byte) : bytesNat (bs ++ [b]) = bytesNat bs * 256 + b.toNat := by
  simp only [bytesNat, List.foldl_append, List.foldl_cons, List.foldl_nil]

theorem cwBytes_getElem? (cw : BitVec 200) {k : Nat} (hk : k < 25) :
    (cwBytes cw)[k]? = some (cw.extractLsb' (8 * (24 - k)) 8) := by
  rw [cwBytes, List.getElem?_map, List.getElem?_range hk, Option.map_some]

/-- The first `n` bytes are the word's top `8 n` bits. -/
theorem bytesNat_take_cwBytes (cw : BitVec 200) {n : Nat} (hn : n ≤ 25) :
    bytesNat ((cwBytes cw).take n) = cw.toNat >>> (8 * (25 - n)) := by
  induction n with
  | zero =>
    rw [Nat.shiftRight_eq_zero _ _ cw.isLt]
    rfl
  | succ n ih =>
    have hshift : 8 * (25 - n) = 8 * (24 - n) + 8 := by omega
    have hnext : 25 - (n + 1) = 24 - n := by omega
    rw [List.take_add_one, cwBytes_getElem? cw hn, Option.toList_some, bytesNat_concat, ih (Nat.le_of_succ_le hn),
      BitVec.extractLsb'_toNat, hshift, hnext, Nat.shiftRight_add]
    omega

theorem cwBytes_length (cw : BitVec 200) : (cwBytes cw).length = 25 := by
  rw [cwBytes, List.length_map, List.length_range]

/-- The 25 bytes denote the word. -/
theorem bytesNat_cwBytes (cw : BitVec 200) : bytesNat (cwBytes cw) = cw.toNat := by
  have h := bytesNat_take_cwBytes cw (le_refl 25)
  rwa [List.take_of_length_le (cwBytes_length cw).le] at h

theorem decodeBytes_cwBytes (cw : BitVec 200) : decodeBytes (cwBytes cw) = .ok (decode cw) := by
  rw [decodeBytes, if_pos (cwBytes_length cw), bytesNat_cwBytes, BitVec.ofNat_toNat, BitVec.setWidth_eq]

end Sys2Proof

namespace Sys2Proof.Machine

/-- Settles O10: the bytes by index; together they denote the word. -/
theorem bytesCarryTheCommandWord : Obligations.BytesCarryTheCommandWord := by
  refine ⟨fun cw => ⟨cwBytes_length cw, fun k hk => ?_, decodeBytes_cwBytes cw⟩, fun bs hbs => if_neg hbs⟩
  have hbit : 192 - 8 * k = 8 * (24 - k) := by omega
  rw [hbit, cwBytes_getElem? cw hk]

/-! ## Refusals -/

variable {s : State}

theorem whenIdle_busy {k : Out} (hb : s.busy = true) : whenIdle s k = .refused .commandWhileBusy := if_pos hb

theorem exec_command_busy {i : Instr} (hk : i.kind ≠ .wireSymbol) (hb : s.busy = true) :
    exec i s = .refused .commandWhileBusy := by
  cases i with
  | latch | pixelFrame => exact absurd rfl hk
  | setup | setPixel | setPixelK | setAll | setBright | clearAll | send
  | reserved00 | reserved080F | reserved101F | reserved203F | reserved407F | reserved80FF => exact whenIdle_busy hb

theorem exec_wireSymbol_idle {i : Instr} (hk : i.kind = .wireSymbol) (hb : s.busy = false) :
    exec i s = .refused .lineWriteOutsideSend := by
  cases i with
  | latch => simp only [exec, execLatch, hb]
  | pixelFrame => simp only [exec, execPixelFrame, hb]
  | _ => exact nomatch hk

theorem exec_latch_inFrames {u : Nat} (h : segmentOf s.pos.val = .frames u) :
    exec .latch s = .refused .lineWriteOutsideSend := by
  simp only [exec, execLatch, h]
  cases s.busy <;> rfl

theorem exec_pixelFrame_inLatch {k : Nat} (v : BitVec 5) (b g r : Byte) (h : segmentOf s.pos.val = .latch k) :
    exec (.pixelFrame v b g r) s = .refused .lineWriteOutsideSend := by
  simp only [exec, execPixelFrame, h]
  cases s.busy <;> rfl

/-- Settles O31: a command finds the block busy; a symbol finds it idle, or in the other kind of segment. -/
theorem secondWriterIsRefused : Obligations.SecondWriterIsRefused := by
  refine fun i s => ⟨exec_command_busy, exec_wireSymbol_idle, fun hlo hhi => ?_, fun v b g r hpos => ?_⟩
  · obtain ⟨hp, -⟩ | ⟨-, -, h⟩ | ⟨hp, -⟩ := segmentOf_cases s.pos.val
    · omega
    · exact exec_latch_inFrames h
    · omega
  · obtain ⟨-, h⟩ | ⟨hlo, hhi, -⟩ | ⟨-, h⟩ := segmentOf_cases s.pos.val
    · exact exec_pixelFrame_inLatch v b g r h
    · omega
    · exact exec_pixelFrame_inLatch v b g r h

end Sys2Proof.Machine
end

section
/-! PROOFS. Decoding and encoding (30_encoding R70 to R74, R86, R89). -/

namespace Sys2Proof

/-! ## Slices -/

/-- A slice inside a slice. -/
theorem slice_slice {w s n : Nat} (x : BitVec w) {a len : Nat} (h : a + len ≤ n) :
    (x.extractLsb' s n).extractLsb' a len = x.extractLsb' (s + a) len := by
  ext i hi
  have hin : a + i < n := by omega
  simp [hin, Nat.add_assoc]

/-- Words that agree in a slice agree in every slice inside it. -/
theorem slice_congr {w s n : Nat} {x y : BitVec w} (h : x.extractLsb' s n = y.extractLsb' s n) (a len : Nat)
    (hle : a + len ≤ n) : x.extractLsb' (s + a) len = y.extractLsb' (s + a) len := by
  rw [← slice_slice x hle, ← slice_slice y hle, h]

/-- A slice is zero exactly where its two parts are. -/
theorem slice_eq_zero_iff {w : Nat} (x : BitVec w) (s m n : Nat) :
    x.extractLsb' s (m + n) = 0#(m + n) ↔ x.extractLsb' (s + n) m = 0#m ∧ x.extractLsb' s n = 0#n := by
  constructor
  · intro h
    have hhigh := slice_slice x (s := s) (n := m + n) (a := n) (len := m) (by omega)
    have hlow := slice_slice x (s := s) (n := m + n) (a := 0) (len := n) (by omega)
    rw [h, BitVec.extractLsb'_zero] at hhigh hlow
    exact ⟨hhigh.symm, hlow.symm⟩
  · rintro ⟨hhigh, hlow⟩
    rw [← slice_join, hhigh, hlow, BitVec.zero_append_zero]

/-! ## Reserved opcodes (R74) -/

theorem reservedRow_080F {op : Byte} (h : opIn 0x08 0x0F op = true) : reservedRow op = .reserved080F op := by
  obtain ⟨hlo, hhi⟩ := Laws.opIn_bounds h
  rw [reservedRow, if_neg (by omega), if_pos (by omega)]

theorem reservedRow_101F {op : Byte} (h : opIn 0x10 0x1F op = true) : reservedRow op = .reserved101F op := by
  obtain ⟨hlo, hhi⟩ := Laws.opIn_bounds h
  rw [reservedRow, if_neg (by omega), if_neg (by omega), if_pos (by omega)]

theorem reservedRow_203F {op : Byte} (h : opIn 0x20 0x3F op = true) : reservedRow op = .reserved203F op := by
  obtain ⟨hlo, hhi⟩ := Laws.opIn_bounds h
  rw [reservedRow, if_neg (by omega), if_neg (by omega), if_neg (by omega), if_pos (by omega)]

theorem reservedRow_407F {op : Byte} (h : opIn 0x40 0x7F op = true) : reservedRow op = .reserved407F op := by
  obtain ⟨hlo, hhi⟩ := Laws.opIn_bounds h
  rw [reservedRow, if_neg (by omega), if_neg (by omega), if_neg (by omega), if_neg (by omega), if_pos (by omega)]

theorem reservedRow_80FF {op : Byte} (h : opIn 0x80 0xFF op = true) : reservedRow op = .reserved80FF op := by
  obtain ⟨hlo, hhi⟩ := Laws.opIn_bounds h
  rw [reservedRow, if_neg (by omega), if_neg (by omega), if_neg (by omega), if_neg (by omega), if_neg (by omega)]

/-- The canonical word of a reserved row carries the opcode alone (R73). -/
theorem encode_reservedRow (op : Byte) : encode (reservedRow op) = .command (commandWord op 0 0 0 0 0) := by
  unfold reservedRow
  split_ifs with h0
  · have hop : op = 0x00 := BitVec.eq_of_toNat_eq h0
    rw [hop, encode]
  all_goals rfl

/-! ## Decoding by opcode -/

/-- The opcode is one of the seven legal ones, or reserved (R72, R74). -/
theorem opcode_cases (n : Nat) :
    n = 1 ∨ n = 2 ∨ n = 3 ∨ n = 4 ∨ n = 5 ∨ n = 6 ∨ n = 7 ∨ (n = 0 ∨ 8 ≤ n) := by omega

variable {cw : BitVec 200}

theorem decode_setup (h : (opField cw).toNat = 1) : decode cw = .setup := by simp only [decode, h]

theorem decode_setPixel (h : (opField cw).toNat = 2) :
    decode cw = .setPixel (idxField cw) (rField cw) (gField cw) (bField cw) (bfField cw) := by
  simp only [decode, h]

theorem decode_setPixelK (h : (opField cw).toNat = 3) :
    decode cw = .setPixelK (idxField cw) (rField cw) (gField cw) (bField cw) := by
  simp only [decode, h]

theorem decode_setAll (h : (opField cw).toNat = 4) :
    decode cw = .setAll (rField cw) (gField cw) (bField cw) (bfField cw) := by
  simp only [decode, h]

theorem decode_setBright (h : (opField cw).toNat = 5) : decode cw = .setBright (idxField cw) (bfField cw) := by
  simp only [decode, h]

theorem decode_clearAll (h : (opField cw).toNat = 6) : decode cw = .clearAll := by simp only [decode, h]

theorem decode_send (h : (opField cw).toNat = 7) : decode cw = .send := by simp only [decode, h]

theorem decode_reserved (h : (opField cw).toNat = 0 ∨ 8 ≤ (opField cw).toNat) :
    decode cw = reservedRow (opField cw) := by
  unfold decode
  split
  case h_8 => rfl
  all_goals omega

/-! ## The round trip -/

/-- A word with a reserved opcode decodes to that opcode's row, whatever its other fields are. -/
theorem decode_commandWord_reserved {op : Byte} {lo hi : Nat} (h : opIn lo hi op = true) (hlo : 8 ≤ lo)
    (idx r g b : Int) (bf : Frac) : decode (commandWord op idx r g b bf) = reservedRow op := by
  have hop := Laws.opIn_bounds h
  rw [decode_reserved (.inr _), opField_commandWord]
  rw [opField_commandWord]
  omega

/-! ## Unused fields (R73) -/

theorem int32_eq_zero_iff (v : BitVec 32) : int32 v = 0 ↔ v = 0#32 := BitVec.toInt_inj (y := 0#32)

/-- A command word is the word whose fields it holds. -/
theorem commandWord_eq_iff {op : Byte} {idx r g b : Int} {bf : Frac} :
    commandWord op idx r g b bf = cw ↔ op = opField cw ∧ int32 (field32 idx) = idxField cw ∧
      int32 (field32 r) = rField cw ∧ int32 (field32 g) = gField cw ∧ int32 (field32 b) = bField cw ∧
      bf = bfField cw := by
  constructor
  · rintro rfl
    simp
  · rintro ⟨hop, hidx, hr, hg, hb, hbf⟩
    rw [← commandWord_fields cw, ← hop, ← hidx, ← hr, ← hg, ← hb, ← hbf]
    simp only [commandWord, field32_int32]

/-- The three colour fields as one slice. -/
theorem colourFields_eq_zero_iff (cw : BitVec 200) :
    cw.extractLsb' 64 96 = 0#96 ↔ rField cw = 0 ∧ gField cw = 0 ∧ bField cw = 0 := by
  rw [rField, gField, bField, int32_eq_zero_iff, int32_eq_zero_iff, int32_eq_zero_iff]
  exact (slice_eq_zero_iff cw 64 32 64).trans (and_congr_right' (slice_eq_zero_iff cw 64 32 32))

/-- Every field but the opcode as one slice. -/
theorem operandFields_eq_zero_iff (cw : BitVec 200) :
    cw.extractLsb' 0 192 = 0#192 ↔
      idxField cw = 0 ∧ (rField cw = 0 ∧ gField cw = 0 ∧ bField cw = 0) ∧ bfField cw = 0#64 := by
  rw [idxField, int32_eq_zero_iff, bfField, ← colourFields_eq_zero_iff]
  exact (slice_eq_zero_iff cw 0 32 160).trans (and_congr_right' (slice_eq_zero_iff cw 0 96 64))

/-- The word that carries an opcode alone. -/
theorem commandWord_opcode_eq_iff {op : Byte} (hop : op = opField cw) :
    commandWord op 0 0 0 0 0 = cw ↔ cw.extractLsb' 0 192 = 0#192 := by
  have h0 : int32 (field32 0) = 0 := by decide
  rw [commandWord_eq_iff, h0, operandFields_eq_zero_iff]
  constructor
  · rintro ⟨-, hidx, hr, hg, hb, hbf⟩
    exact ⟨hidx.symm, ⟨hr.symm, hg.symm, hb.symm⟩, hbf.symm⟩
  · rintro ⟨hidx, ⟨hr, hg, hb⟩, hbf⟩
    exact ⟨hop, hidx.symm, hr.symm, hg.symm, hb.symm, hbf.symm⟩

/-- The opcode as a byte. -/
theorem opField_eq {n : Nat} (h : (opField cw).toNat = n) : BitVec.ofNat 8 n = opField cw := by
  rw [← h, BitVec.ofNat_toNat, BitVec.setWidth_eq]

/-- The integer fields of a word go through a signed 32-bit field unchanged. -/
theorem int32_field32_fields (cw : BitVec 200) :
    int32 (field32 (idxField cw)) = idxField cw ∧ int32 (field32 (rField cw)) = rField cw ∧
      int32 (field32 (gField cw)) = gField cw ∧ int32 (field32 (bField cw)) = bField cw :=
  ⟨int32_field32 (fitsS32_int32 _), int32_field32 (fitsS32_int32 _), int32_field32 (fitsS32_int32 _),
    int32_field32 (fitsS32_int32 _)⟩

end Sys2Proof

namespace Sys2Proof.Machine

/-- Settles O8: the opcode of an instruction's word selects its row again, and each field is read back. -/
theorem decodeOfEncodeIsTheInstruction : Obligations.DecodeOfEncodeIsTheInstruction := by
  intro i hi
  cases i with
  | setup => exact congrArg Except.ok (decode_setup (by simp))
  | setPixel idx r g b bf =>
    simp only [Instr.wf, Bool.and_eq_true] at hi
    obtain ⟨⟨⟨hidx, hr⟩, hg⟩, hb⟩ := hi
    rw [encode, decodeWord, decode_setPixel (by simp)]
    simp [int32_field32, *]
  | setPixelK idx r g b =>
    simp only [Instr.wf, Bool.and_eq_true] at hi
    obtain ⟨⟨⟨hidx, hr⟩, hg⟩, hb⟩ := hi
    rw [encode, decodeWord, decode_setPixelK (by simp)]
    simp [int32_field32, *]
  | setAll r g b bf =>
    simp only [Instr.wf, Bool.and_eq_true] at hi
    obtain ⟨⟨hr, hg⟩, hb⟩ := hi
    rw [encode, decodeWord, decode_setAll (by simp)]
    simp [int32_field32, *]
  | setBright idx bf =>
    rw [encode, decodeWord, decode_setBright (by simp)]
    simp [int32_field32 hi]
  | clearAll => exact congrArg Except.ok (decode_clearAll (by simp))
  | send => exact congrArg Except.ok (decode_send (by simp))
  | reserved00 =>
    rw [encode, decodeWord, decode_reserved (.inl (by simp)), opField_commandWord]
    rfl
  | reserved080F op =>
    rw [encode, decodeWord, decode_commandWord_reserved hi (by decide), reservedRow_080F hi]
  | reserved101F op =>
    rw [encode, decodeWord, decode_commandWord_reserved hi (by decide), reservedRow_101F hi]
  | reserved203F op =>
    rw [encode, decodeWord, decode_commandWord_reserved hi (by decide), reservedRow_203F hi]
  | reserved407F op =>
    rw [encode, decodeWord, decode_commandWord_reserved hi (by decide), reservedRow_407F hi]
  | reserved80FF op =>
    rw [encode, decodeWord, decode_commandWord_reserved hi (by decide), reservedRow_80FF hi]
  | pixelFrame v b g r =>
    obtain ⟨htop, hv, hb, hg, hr⟩ := frameWord_fields v b g r
    rw [encode, decodeWord, decodeFrame, if_pos htop, hv, hb, hg, hr]
  | latch => rfl

/-- Words that agree in their used fields decode alike. -/
theorem decode_congr {x y : BitVec 200} (h : agreeInUsedFields x y) : decode x = decode y := by
  obtain ⟨hop, hfields⟩ := h
  obtain hn | hn | hn | hn | hn | hn | hn | hn := opcode_cases (opField x).toNat
  all_goals
    have hn' := hn
    rw [hop] at hn'
  · rw [decode_setup hn, decode_setup hn']
  · simp only [hn] at hfields
    rw [hfields]
  · simp only [hn] at hfields
    rw [decode_setPixelK hn, decode_setPixelK hn', idxField, idxField, rField, rField, gField, gField, bField, bField,
      slice_congr hfields 96 32 (by decide), slice_congr hfields 64 32 (by decide),
      slice_congr hfields 32 32 (by decide), slice_congr hfields 0 32 (by decide)]
  · simp only [hn] at hfields
    rw [decode_setAll hn, decode_setAll hn', rField, rField, gField, gField, bField, bField, bfField, bfField,
      slice_congr hfields 128 32 (by decide), slice_congr hfields 96 32 (by decide),
      slice_congr hfields 64 32 (by decide), slice_congr hfields 0 64 (by decide)]
  · simp only [hn] at hfields
    obtain ⟨hidx, hbf⟩ := hfields
    rw [decode_setBright hn, decode_setBright hn', idxField, idxField, hidx, bfField, bfField, hbf]
  · rw [decode_clearAll hn, decode_clearAll hn']
  · rw [decode_send hn, decode_send hn']
  · rw [decode_reserved hn, decode_reserved hn', hop]

/-- Where a command uses no operand, and where the opcode is reserved, R73's word is the opcode alone. -/
theorem opcodeWord_eq_iff_canonical {op : Byte} {cw : BitVec 200} (hop : op = opField cw)
    (h : (opField cw).toNat < 2 ∨ 5 < (opField cw).toNat) :
    CodeWord.command (commandWord op 0 0 0 0 0) = .command cw ↔ canonical cw := by
  rw [CodeWord.command.injEq, commandWord_opcode_eq_iff hop]
  unfold canonical
  split
  case h_5 => exact Iff.rfl
  all_goals omega

/-- Encoding what a word decodes to gives the word back exactly where its unused fields are zero. -/
theorem encode_decode_eq_iff (cw : BitVec 200) : encode (decode cw) = .command cw ↔ canonical cw := by
  have h0 : int32 (field32 0) = 0 := by decide
  obtain ⟨hidx, hr, hg, hb⟩ := int32_field32_fields cw
  obtain hn | hn | hn | hn | hn | hn | hn | hn := opcode_cases (opField cw).toNat
  · rw [decode_setup hn]
    exact opcodeWord_eq_iff_canonical (opField_eq hn) (by omega)
  · rw [decode_setPixel hn, encode, CodeWord.command.injEq, commandWord_eq_iff, hidx, hr, hg, hb]
    simp only [canonical, hn, iff_true, and_true]
    exact opField_eq hn
  · rw [decode_setPixelK hn, encode, CodeWord.command.injEq, commandWord_eq_iff, hidx, hr, hg, hb]
    simp only [canonical, hn, true_and]
    exact ⟨fun h => h.2.symm, fun h => ⟨opField_eq hn, h.symm⟩⟩
  · rw [decode_setAll hn, encode, CodeWord.command.injEq, commandWord_eq_iff, hr, hg, hb, h0]
    simp only [canonical, hn, and_true]
    rw [eq_comm (a := 0), idxField, int32_eq_zero_iff]
    exact and_iff_right (opField_eq hn)
  · rw [decode_setBright hn, encode, CodeWord.command.injEq, commandWord_eq_iff, hidx, h0]
    simp only [canonical, hn, true_and, and_true, eq_comm (a := (0 : Int))]
    exact (and_iff_right (opField_eq hn)).trans (colourFields_eq_zero_iff cw).symm
  · rw [decode_clearAll hn]
    exact opcodeWord_eq_iff_canonical (opField_eq hn) (by omega)
  · rw [decode_send hn]
    exact opcodeWord_eq_iff_canonical (opField_eq hn) (by omega)
  · rw [decode_reserved hn, encode_reservedRow]
    exact opcodeWord_eq_iff_canonical rfl (by omega)

/-- Settles O9: decoding reads the used fields only; a word is rebuilt from all its fields, so the
unused ones decide. -/
theorem unusedFieldsAreIgnored : Obligations.UnusedFieldsAreIgnored :=
  ⟨fun _ _ => decode_congr, encode_decode_eq_iff⟩

/-- Settles O7: each word's opcode selects its row, and the row's fields are read from the word. -/
theorem writtenOutWordsDecode : Obligations.WrittenOutWordsDecode := by
  refine ⟨decode_setup (by decide), (decode_setPixel (by decide)).trans (by decide),
    (decode_setPixelK (by decide)).trans (by decide), (decode_setAll (by decide)).trans (by decide),
    (decode_setBright (by decide)).trans (by decide), decode_clearAll (by decide), decode_send (by decide),
    (decode_reserved (.inl (by decide))).trans (by decide), (decode_reserved (.inr (by decide))).trans (by decide),
    (decode_reserved (.inr (by decide))).trans (by decide), by decide, rfl⟩

end Sys2Proof.Machine
end

section
/-! PROOFS. The colour mask (30_encoding R80) and the wire frame (R86, R87). -/

namespace Sys2Proof.Machine

/-! ## Colour (R80) -/

theorem chan8_toNat (v : Int) : ((chan8 v).toNat : Int) = v % 256 := by
  rw [chan8, BitVec.toNat_ofInt]
  exact Int.toNat_of_nonneg (Int.emod_nonneg v (by decide))

/-- The mask of a 32-bit field is its low byte. -/
theorem chan8_int32 (x : BitVec 32) : chan8 (int32 x) = x.extractLsb' 0 8 :=
  calc chan8 (int32 x) = x.signExtend 8 := rfl
    _ = x.setWidth 8 := BitVec.signExtend_eq_setWidth_of_le x (by decide)
    _ = x.extractLsb' 0 8 := BitVec.setWidth_eq_extractLsb' (by decide)

/-- Settles O32: the mask of an integer, which the fractional rule takes the truncation to. -/
theorem chanIsTruncateThenMask : Obligations.ChanIsTruncateThenMask :=
  ⟨chan8_toNat, chan8_int32, fun num den _ => chan8_toNat (num.tdiv den), by decide, by decide, by decide, by decide⟩

/-! ## The wire frame (R86, R87) -/

/-- The three top bits are set over a 5-bit code (R87). -/
theorem brightnessByte_toNat : ∀ v : BitVec 5, (0xE0#8 ||| v.setWidth 8).toNat = 224 + v.toNat := by decide

/-- Settles O38: the frame's fields, from the top. -/
theorem frameBytesInWireOrder : Obligations.FrameBytesInWireOrder := by
  intro p
  have hbyte : p.frame.extractLsb' 24 8 = 0xE0#8 ||| p.br.setWidth 8 := frame_brightnessByte p
  obtain ⟨htop, -, hb, hg, hr⟩ := frameWord_fields p.br p.b p.g p.r
  refine ⟨hbyte, hb, hg, hr, hbyte ▸ brightnessByte_toNat p.br, htop, fun h0 => ?_⟩
  rw [Pixel.frame] at h0
  rw [h0] at htop
  exact absurd htop (by decide)

end Sys2Proof.Machine
end

section
/-! PROOFS. The brightness fraction: the number it denotes (30_encoding R81), its product (R85) and its code (R82 to
R84). -/

namespace Sys2Proof.Machine

/-! ## The number a fraction denotes (R81) -/

theorem val_nonfinite {bf : Frac} (h : (bf.extractLsb' 52 11).toNat = 2047) : val bf = none := by
  simp only [val, h, if_true]

theorem val_subnormal {bf : Frac} (h : (bf.extractLsb' 52 11).toNat = 0) :
    val bf = some (if bf.getLsbD 63 then -((bf.extractLsb' 0 52).toNat : Int) else (bf.extractLsb' 0 52).toNat) := by
  simp only [val, h, if_true]
  rfl

theorem val_normal {bf : Frac} (h0 : (bf.extractLsb' 52 11).toNat ≠ 0) (h : (bf.extractLsb' 52 11).toNat ≠ 2047) :
    val bf = some (if bf.getLsbD 63
      then -(((2 ^ 52 + (bf.extractLsb' 0 52).toNat) * 2 ^ ((bf.extractLsb' 52 11).toNat - 1) : Nat) : Int)
      else ((2 ^ 52 + (bf.extractLsb' 0 52).toNat) * 2 ^ ((bf.extractLsb' 52 11).toNat - 1) : Nat)) := by
  simp only [val, if_neg h0, if_neg h]

/-- A magnitude with a sign bit, as a rational number. -/
theorem signed_cast (b : Bool) (n : Nat) :
    ((if b then -(n : Int) else n : Int) : ℚ) = (if b then -1 else 1) * n := by
  cases b <;> simp

/-- A normal number's exponent `e - 1` in units of `2^(-1074)` is R81's `e - 1075`. -/
theorem two_pow_units {e : Nat} (h : e ≠ 0) : (2 : ℚ) ^ (e - 1) * 2 ^ (-1074 : ℤ) = 2 ^ ((e : ℤ) - 1075) := by
  have he : ((e - 1 : Nat) : ℤ) + -1074 = (e : ℤ) - 1075 := by omega
  rw [← zpow_natCast, ← zpow_add₀ two_ne_zero, he]

/-- Settles O33: the three kinds of pattern, the unit taken out of a normal number's exponent. -/
theorem valIsTheBinary64Number : Obligations.ValIsTheBinary64Number := by
  intro bf sign e m
  refine ⟨val_nonfinite, fun h0 => ⟨_, val_subnormal h0, ?_⟩, fun h0 h => ⟨_, val_normal h0 h, ?_⟩⟩
  · rw [signed_cast]
  · rw [signed_cast, Nat.cast_mul, ← mul_assoc, mul_assoc, Nat.cast_pow, Nat.cast_ofNat, two_pow_units h0, Nat.cast_add,
      Nat.cast_pow, Nat.cast_ofNat]

/-! ## Rounding (R85) -/

/-- Rounding goes down, or up where the division is not exact. -/
theorem nearestEven_cases {n d : Nat} (hd : 0 < d) :
    nearestEven n d = n / d ∨ (n % d ≠ 0 ∧ nearestEven n d = n / d + 1) := by
  by_cases hup : d < 2 * (n % d) ∨ (2 * (n % d) = d ∧ n / d % 2 = 1)
  · exact .inr ⟨by omega, if_pos hup⟩
  · exact .inl (if_neg hup)

/-- Rounding to a multiple of `d` passes no multiple of `d` from below. -/
theorem nearestEven_mul_le {n d N : Nat} (hd : 0 < d) (hN : d ∣ N) (h : n ≤ N) : nearestEven n d * d ≤ N := by
  obtain ⟨q, rfl⟩ := hN
  have hle : n / d ≤ q := Nat.div_le_of_le_mul h
  rw [Nat.mul_comm]
  refine Nat.mul_le_mul_left d ?_
  obtain hdown | ⟨hmod, hup⟩ := nearestEven_cases (n := n) hd
  · rwa [hdown]
  · rw [hup]
    refine Nat.lt_of_le_of_ne hle fun heq => ?_
    have hn := Nat.div_add_mod n d
    rw [heq] at hn
    omega

/-- Nor does it from above. -/
theorem le_nearestEven_mul {n d N : Nat} (hd : 0 < d) (hN : d ∣ N) (h : N ≤ n) : N ≤ nearestEven n d * d := by
  obtain ⟨q, rfl⟩ := hN
  have hle : q ≤ n / d := (Nat.le_div_iff_mul_le hd).mpr (by rwa [Nat.mul_comm])
  rw [Nat.mul_comm]
  refine Nat.mul_le_mul_right d (hle.trans ?_)
  obtain hdown | ⟨-, hup⟩ := nearestEven_cases (n := n) hd
  · exact hdown.ge
  · exact hup.ge.trans' (Nat.le_succ _)

theorem log2_lt_of_le_mul_two_pow {n k : Nat} (h : n ≤ 31 * 2 ^ k) : n.log2 < k + 5 := by
  obtain rfl | hn := Nat.eq_zero_or_pos n
  · rw [Nat.log2_zero]
    omega
  · refine (Nat.log2_lt hn.ne').mpr (h.trans_lt ?_)
    rw [Nat.pow_add, Nat.mul_comm]
    exact Nat.mul_lt_mul_of_pos_left (by decide) (Nat.two_pow_pos k)

theorem two_pow_dvd_unitsPerOne {k : Nat} (h : k ≤ 1074) : 2 ^ k ∣ unitsPerOne := pow_dvd_pow 2 h

/-- In the range of the product the rounding step is no more than 1.0, and divides it. -/
theorem roundingStep_dvd_unitsPerOne {n : Nat} (h : n ≤ 31 * unitsPerOne) : 2 ^ (n.log2 - 52) ∣ unitsPerOne := by
  rw [unitsPerOne] at h
  have hlog := log2_lt_of_le_mul_two_pow h
  exact two_pow_dvd_unitsPerOne (by omega)

theorem roundBinary64_le {n : Nat} (hn : n ≤ 31 * unitsPerOne) {k : Nat} (h : n ≤ k * unitsPerOne) :
    roundBinary64 n ≤ k * unitsPerOne :=
  nearestEven_mul_le (Nat.two_pow_pos _) ((roundingStep_dvd_unitsPerOne hn).mul_left k) h

theorem le_roundBinary64 {n : Nat} (hn : n ≤ 31 * unitsPerOne) {k : Nat} (h : k * unitsPerOne ≤ n) :
    k * unitsPerOne ≤ roundBinary64 n :=
  le_nearestEven_mul (Nat.two_pow_pos _) ((roundingStep_dvd_unitsPerOne hn).mul_left k) h

/-! ## Inside [0, 1] (R82, R83) -/

theorem unitsPerOne_pos : 0 < unitsPerOne := pow_pos two_pos 1074

/-- The product of a fraction of `n` units in [0, 1], in units. -/
def inRangeProduct (m : Mul31) (n : Nat) : Nat :=
  match m with
  | .exact => 31 * n
  | .ieee => roundBinary64 (31 * n)

/-- The product of a fraction in [0, 1] is at most 31. -/
theorem inRangeProduct_le (m : Mul31) {n : Nat} (h : n ≤ unitsPerOne) : inRangeProduct m n ≤ 31 * unitsPerOne := by
  have hn : 31 * n ≤ 31 * unitsPerOne := Nat.mul_le_mul_left 31 h
  cases m with
  | exact => exact hn
  | ieee => exact roundBinary64_le hn hn

/-- A product of at most 31 does not overflow. -/
theorem mul31_inRange (m : Mul31) {n : Nat} (h : n ≤ unitsPerOne) : mul31 m n = some (inRangeProduct m n : Int) := by
  cases m with
  | exact => rfl
  | ieee =>
    have hover : ¬ overflowUnits ≤ roundBinary64 (31 * n) :=
      Nat.not_le.mpr ((inRangeProduct_le .ieee h).trans_lt (by decide +kernel))
    have hsign : ¬ (n : Int) < 0 := Int.not_lt.mpr (Int.natCast_nonneg n)
    simp only [mul31, Int.natAbs_natCast, if_neg hover, if_neg hsign, inRangeProduct]

/-- A fraction in [0, 1] has the floor of its product as its code, whatever `ENC5_OOR` is. -/
theorem enc5_inRange {c : Config} {bf : Frac} {v p : Int} (hv : val bf = some v) (h0 : 0 ≤ v) (h1 : v ≤ unitsPerOne)
    (hp : mul31 c.mul31 v = some p) : enc5 c bf = some (floorMod32 p) := by
  have hin : inUnitRange v = true := by simp only [inUnitRange, h0, h1, decide_true, Bool.and_self]
  simp only [enc5, hv, hp, hin, if_true]

/-- The floor of a product of at most 31 fits the code. -/
theorem floorMod32_toNat {p : Nat} (h : p ≤ 31 * unitsPerOne) : (floorMod32 p).toNat = p / unitsPerOne := by
  have hle : p / unitsPerOne ≤ 31 := Nat.div_le_of_le_mul (by rwa [Nat.mul_comm])
  rw [floorMod32, ← Int.natCast_ediv, BitVec.ofInt_natCast, BitVec.toNat_ofNat]
  exact Nat.mod_eq_of_lt (Nat.lt_succ_of_le hle)

/-- The code of a fraction of `n` units in [0, 1]. -/
theorem exists_enc5_inRange (c : Config) {bf : Frac} {n : Nat} (hv : val bf = some (n : Int)) (hn : n ≤ unitsPerOne) :
    ∃ k : BitVec 5, enc5 c bf = some k ∧ k.toNat = inRangeProduct c.mul31 n / unitsPerOne :=
  ⟨_, enc5_inRange hv (Int.natCast_nonneg n) (Int.ofNat_le.mpr hn) (mul31_inRange _ hn),
    floorMod32_toNat (inRangeProduct_le _ hn)⟩

/-- Settles O34: the product, and the code as its floor. -/
theorem inRangeCodeIsFloorOfProduct : Obligations.InRangeCodeIsFloorOfProduct := by
  intro c bf v hv h0 h1
  lift v to Nat using h0
  have hn : v ≤ unitsPerOne := Int.ofNat_le.mp h1
  obtain ⟨k, hk, hcode⟩ := exists_enc5_inRange c hv hn
  have hp : (inRangeProduct c.mul31 v : Int) ≤ 31 * unitsPerOne := mod_cast inRangeProduct_le c.mul31 hn
  exact ⟨_, k, mul31_inRange _ hn, Int.natCast_nonneg _, hp, hk, by rw [hcode, Int.natCast_ediv]⟩

/-! ## The in-range table (R83) -/

/-- `ENC5_OOR` has no part in the code of a fraction in [0, 1]. -/
theorem enc5_ignores_oor {bf : Frac} (h : (val bf).any inUnitRange = true) (m : Mul31) (o o' : Enc5Oor) :
    enc5 { mul31 := m, oor := o } bf = enc5 { mul31 := m, oor := o' } bf := by
  obtain ⟨v, hv, hin⟩ := (Option.any_eq_true _ _).mp h
  simp only [enc5, hv, hin, if_true]

/-- R83's selected values. -/
def selectedCodes : List (Frac × BitVec 5) :=
  [(0x0000000000000000, 0), (0x8000000000000000, 0), (0x3FA0000000000000, 0), (0x3FB999999999999A, 3),
    (0x3FC999999999999A, 6), (0x3FD0000000000000, 7), (0x3FE0000000000000, 15), (0x3FE8000000000000, 23),
    (0x3FEFF7CED916872B, 30), (0x3FEFFFFFFFFFFFFF, 30), (0x3FF0000000000000, 31)]

theorem selectedCodes_inRange : selectedCodes.all (fun x => (val x.1).any inUnitRange) = true := by decide +kernel

/-- The selected values under the default `ENC5_OOR`, by the product. -/
theorem enc5_selectedCodes_default (m : Mul31) :
    selectedCodes.map (fun x => enc5 { mul31 := m, oor := .truncMod32 } x.1) = selectedCodes.map fun x => some x.2 := by
  cases m with
  | exact => decide +kernel
  | ieee => decide +kernel

/-- The selected values under every configuration. -/
theorem enc5_selectedCodes (c : Config) : ∀ x ∈ selectedCodes, enc5 c x.1 = some x.2 := fun x hx =>
  (enc5_ignores_oor (List.all_eq_true.mp selectedCodes_inRange x hx) c.mul31 c.oor .truncMod32).trans
    (List.map_inj_left.mp (enc5_selectedCodes_default c.mul31) x hx)

theorem div_eq_iff_bounds {x d k : Nat} (hd : 0 < d) : x / d = k ↔ k * d ≤ x ∧ x < (k + 1) * d := by
  rw [Nat.div_eq_iff hd, Nat.succ_mul]
  omega

/-- The greatest code is that of 1.0 alone. -/
theorem topBounds_iff {n d : Nat} (hd : 0 < d) (hn : n ≤ d) : 31 * d ≤ 31 * n ∧ 31 * n < (31 + 1) * d ↔ n = d := by
  omega

theorem natCast_bounds_iff (k d x : Nat) :
    (k : Int) * d ≤ 31 * x ∧ 31 * (x : Int) < (k + 1) * d ↔ k * d ≤ 31 * x ∧ 31 * x < (k + 1) * d := by
  norm_cast

/-- The code of the exact product is the `k` whose bounds it lies between. -/
theorem enc5_exact_eq_iff (o : Enc5Oor) {bf : Frac} {n k : Nat} (hv : val bf = some (n : Int))
    (hn : n ≤ unitsPerOne) (hk : k < 32) :
    enc5 { mul31 := .exact, oor := o } bf = some (BitVec.ofNat 5 k) ↔
      k * unitsPerOne ≤ 31 * n ∧ 31 * n < (k + 1) * unitsPerOne := by
  obtain ⟨code, hcode, hdiv⟩ := exists_enc5_inRange { mul31 := .exact, oor := o } hv hn
  rw [hcode, Option.some_inj, ← BitVec.toNat_inj, hdiv, BitVec.toNat_ofNat, Nat.mod_eq_of_lt hk]
  exact div_eq_iff_bounds unitsPerOne_pos

/-- Settles O35: the code is the quotient of the exact product, whose value a pair of bounds gives. -/
theorem inRangeTableOfTheExactProduct : Obligations.InRangeTableOfTheExactProduct := by
  refine ⟨fun o bf v hv h0 h1 => ?_, fun c => ?_⟩
  · lift v to Nat using h0
    have hn : v ≤ unitsPerOne := Int.ofNat_le.mp h1
    refine ⟨fun k hk => ?_, ?_⟩
    · rw [enc5_exact_eq_iff o hv hn (by omega), natCast_bounds_iff]
    · rw [Int.natCast_inj, ← topBounds_iff unitsPerOne_pos hn]
      exact enc5_exact_eq_iff o (k := 31) hv hn (by decide)
  · have h := enc5_selectedCodes c
    simpa only [selectedCodes, List.forall_mem_cons, List.not_mem_nil, false_implies, implies_true, and_true] using h

/-! ## Outside [0, 1], and no number (R84) -/

theorem truncMod32_toNat (p : Int) : ((truncMod32 p).toNat : Int) = p.tdiv unitsPerOne % 32 := by
  rw [truncMod32, BitVec.toNat_ofInt]
  exact Int.toNat_of_nonneg (Int.emod_nonneg _ (by decide))

theorem inUnitRange_outside {v : Int} (h : v < 0 ∨ unitsPerOne < v) : inUnitRange v = false := by
  simp only [inUnitRange, Bool.and_eq_false_iff, decide_eq_false_iff_not, not_le]
  exact h

/-- Settles O36: each stage of the encoding that finds no number gives no code; past them the default truncates. -/
theorem outOfRangeCodeIsTruncatedAndWraps : Obligations.OutOfRangeCodeIsTruncatedAndWraps := by
  refine fun c bf => ⟨fun hv => ?_, fun v hv => ⟨fun hp => ?_, fun p hout hp hoor => ?_⟩⟩
  · simp only [enc5, hv]
  · simp only [enc5, hv, hp]
  · refine ⟨truncMod32 p, ?_, truncMod32_toNat p⟩
    simp only [enc5, hv, hp, inUnitRange_outside hout, enc5Oor, hoor, Bool.false_eq_true, if_false]

/-! ## The two products (R85) -/

/-- The rounded product lies between the whole numbers that the exact one lies between. -/
theorem rounded_div_eq_or_succ {n : Nat} (hn : n ≤ 31 * unitsPerOne) :
    roundBinary64 n / unitsPerOne = n / unitsPerOne ∨ roundBinary64 n / unitsPerOne = n / unitsPerOne + 1 := by
  obtain ⟨hle, hlt⟩ := (div_eq_iff_bounds unitsPerOne_pos).mp (Eq.refl (n / unitsPerOne))
  have hlo : n / unitsPerOne ≤ roundBinary64 n / unitsPerOne :=
    (Nat.le_div_iff_mul_le unitsPerOne_pos).mpr (le_roundBinary64 hn hle)
  have hhi : roundBinary64 n / unitsPerOne ≤ n / unitsPerOne + 1 :=
    Nat.div_le_of_le_mul ((roundBinary64_le hn hlt.le).trans_eq (Nat.mul_comm _ _))
  omega

/-- Settles O37: both codes are floors, and rounding keeps the product between whole numbers. -/
theorem roundedProductGivesTheSameOrNextCode : Obligations.RoundedProductGivesTheSameOrNextCode := by
  intro o bf v hv h0 h1
  lift v to Nat using h0
  have hn : v ≤ unitsPerOne := Int.ofNat_le.mp h1
  obtain ⟨a, ha, hexact⟩ := exists_enc5_inRange { mul31 := .exact, oor := o } hv hn
  obtain ⟨b, hb, hieee⟩ := exists_enc5_inRange { mul31 := .ieee, oor := o } hv hn
  refine ⟨a, b, ha, hb, ?_⟩
  rw [← BitVec.toNat_inj, hexact, hieee]
  exact rounded_div_eq_or_succ (Nat.mul_le_mul_left 31 hn)

end Sys2Proof.Machine
end

section
/-! PROOFS. A buffer command over all eight slots, as eight commands one after another (30_encoding R79; 41_buffer_ops
R126, R130), and the reserved rows (30_encoding R74). -/

namespace Sys2Proof.Machine

variable {s : State}

/-! ## Commands one after another -/

theorem execSeq_cons {i : Instr} {is : List Instr} {t : State} (h : exec i s = .next t) :
    execSeq (i :: is) s = execSeq is t := by
  simp only [execSeq, h]

/-- Between sends in `Ready`, instruction `op i` completes with `OK` and makes `f` of what slot `i` held, under the
parameters `cfg`. -/
def WritesSlot (cfg : Config) (f : Option Pixel → Pixel) (op : Fin 8 → Instr) : Prop :=
  ∀ (i : Fin 8) (t : State), t.busy = false → t.mode = .ready → t.env.cfg = cfg →
    exec (op i) t = .next (complete .ok (t.setSlot i (f (t.slot i))))

/-- Slots written one after another, each once: each is `f` of what it held, the others are as they were, and every
command returns `OK`. -/
theorem WritesSlot.execSeq_nodup {f : Option Pixel → Pixel} {op : Fin 8 → Instr} (hop : WritesSlot s.env.cfg f op)
    (hb : s.busy = false) (hm : s.mode = .ready) {is : List (Fin 8)} (hnd : is.Nodup) :
    ∃ u, execSeq (is.map op) s = .next u ∧
      (∀ j, u.slot j = if j ∈ is then some (f (s.slot j)) else s.slot j) ∧
      u = { s with
        pixels := u.pixels, last := if is = [] then s.last else .ok
        env := { s.env with replies := s.env.replies ++ List.replicate is.length (.code .ok) } } := by
  induction is generalizing s with
  | nil => exact ⟨s, rfl, fun j => rfl, by simp⟩
  | cons i is ih =>
    obtain ⟨hi, hnd⟩ := List.nodup_cons.mp hnd
    let t := complete .ok (s.setSlot i (f (s.slot i)))
    obtain ⟨u, hu, hslots, hrest⟩ := ih (s := t) hop hb hm hnd
    refine ⟨u, (execSeq_cons (hop i s hb hm rfl)).trans hu, fun j => ?_, hrest.trans ?_⟩
    · have ht : t.slot j = if j = i then some (f (s.slot i)) else s.slot j := slot_setSlot s i j _
      rw [hslots, ht]
      by_cases hj : j = i
      · simp [hj, hi]
      · simp [hj]
    · simp [t, List.replicate_succ]

/-- All eight slots in index order leave the buffer that one `mapSlots` leaves. -/
theorem WritesSlot.execSeq_all {f : Option Pixel → Pixel} {op : Fin 8 → Instr} (hop : WritesSlot s.env.cfg f op)
    (hb : s.busy = false) (hm : s.mode = .ready) :
    execSeq ((List.finRange 8).map op) s = .next
      { s with
        pixels := (s.mapSlots f).pixels, last := .ok
        env := { s.env with replies := s.env.replies ++ List.replicate 8 (.code .ok) } } := by
  obtain ⟨u, hu, hslots, hrest⟩ := hop.execSeq_nodup hb hm (List.nodup_finRange 8)
  have hpixels : u.pixels = (s.mapSlots f).pixels := pixels_ext fun j => by
    rw [hslots, slot_mapSlots, if_pos (List.mem_finRange j)]
  rw [hu, hrest, hpixels]
  rfl

/-! ## `SETALL` and `CLEARALL` -/

/-- A fraction that has a code makes no draw. -/
theorem brightCode_some {bf : Frac} {c : BitVec 5} (h : enc5 s.env.cfg bf = some c) : brightCode bf s = (c, s) := by
  simp only [brightCode, h]

theorem writesSlot_setPixel (r g b : Int) {cfg : Config} {bf : Frac} {c : BitVec 5} (h : enc5 cfg bf = some c) :
    WritesSlot cfg (fun _ => { r := chan8 r, g := chan8 g, b := chan8 b, br := c })
      fun i => .setPixel i.val r g b bf := by
  rintro i t hb hm rfl
  simp only [exec, execSetPixel, whenIdle_idle t hb, whenReady_ready t hm, atIndex, slotIndex_val, brightCode_some h]

theorem exec_setAll_ready (r g b : Int) {bf : Frac} {c : BitVec 5} (hb : s.busy = false) (hm : s.mode = .ready)
    (h : enc5 s.env.cfg bf = some c) : exec (.setAll r g b bf) s = .next (complete .ok
      (s.mapSlots fun _ => { r := chan8 r, g := chan8 g, b := chan8 b, br := c })) := by
  simp only [exec, execSetAll, whenIdle_idle s hb, whenReady_ready s hm, brightCode_some h]

/-- Settles O58: `SETALL` and the eight `SETPIXEL`s write the same pixel to every slot. -/
theorem setAllIsEightSetPixels : Obligations.SetAllIsEightSetPixels := fun r g b _ _ _ hb hm hc =>
  ⟨_, _, exec_setAll_ready r g b hb hm hc, (writesSlot_setPixel r g b hc).execSeq_all hb hm, rfl⟩

theorem writesSlot_setPixelK (r g b : Int) (cfg : Config) :
    WritesSlot cfg (fun o => { r := chan8 r, g := chan8 g, b := chan8 b, br := keptBrightness o })
      fun i => .setPixelK i.val r g b := by
  intro i t hb hm _
  simp only [exec, execSetPixelK, whenIdle_idle t hb, whenReady_ready t hm, atIndex, slotIndex_val]

theorem exec_clearAll_ready (hb : s.busy = false) (hm : s.mode = .ready) :
    exec .clearAll s = .next (complete .ok
      (s.mapSlots fun o => { r := 0, g := 0, b := 0, br := keptBrightness o })) := by
  simp only [exec, execClearAll, whenIdle_idle s hb, whenReady_ready s hm]

/-- Settles O59: colour 0 is stored as 0, and both forms keep each slot's own brightness. -/
theorem clearAllIsEightSetPixelKs : Obligations.ClearAllIsEightSetPixelKs := fun s hb hm =>
  ⟨_, _, exec_clearAll_ready hb hm, (writesSlot_setPixelK 0 0 0 s.env.cfg).execSeq_all hb hm, rfl⟩

/-! ## Reserved rows -/

theorem illegalCommand_idle (hb : s.busy = false) :
    illegalCommand s = .next (completedWith .illegalCommand s) := whenIdle_idle s hb

/-- Settles O20: all six rows are the one illegal command. -/
theorem reservedRowsComplete : Obligations.ReservedRowsComplete := fun _ _ hb =>
  ⟨illegalCommand_idle hb, illegalCommand_idle hb, illegalCommand_idle hb, illegalCommand_idle hb,
    illegalCommand_idle hb, illegalCommand_idle hb⟩

end Sys2Proof.Machine
end

section
/-! PROOFS. The wire symbols, one line write a step (42_send R151 to R159), and the runs of steps that write a latch or
a slot (30_encoding R88, R89). -/

namespace Sys2Proof.Machine

variable {s t : State}

/-! ## Where the serializer stands (R152) -/

theorem segmentOf_startLatch {k : Nat} (h : k < 73) : segmentOf k = .latch k := if_pos h

theorem segmentOf_frames {u : Nat} (h : u < 768) : segmentOf (73 + u) = .frames u := by
  rw [segmentOf, if_neg (by omega), if_pos (by omega), Nat.add_sub_cancel_left]

theorem segmentOf_endLatch (k : Nat) : segmentOf (841 + k) = .latch k := by
  rw [segmentOf, if_neg (by omega), if_neg (by omega), Nat.add_sub_cancel_left]

/-! ## One line write -/

/-- A line write changes the trace and the pins, and nothing else (R151). -/
theorem lineWrite_eq (e : Event) (s : State) :
    lineWrite e s =
      { s with W := s.W ++ [e], pin := if s.h.get e.1 = .ok then s.pin.set e.1 (some e.2) else s.pin } := by
  unfold lineWrite
  cases h : s.h.get e.1 <;> rfl

/-- A serializer step of a send in progress, written out (R151, R158, R159). -/
theorem serialize_eq_afterLineWrite (e : Event) (hb : s.busy = true) : serialize e s = afterLineWrite e s := by
  rw [serialize, afterLineWrite, lineWrite_eq, ← hb]
  rfl

theorem exec_latch_inLatch {k : Nat} (hb : s.busy = true) (h : segmentOf s.pos.val = .latch k) :
    exec .latch s = .next (serialize (latchEvent k) s) := by
  simp only [exec, execLatch, hb, h]

theorem exec_pixelFrame_inFrames {u : Nat} (v : BitVec 5) (b g r : Byte) (hb : s.busy = true)
    (h : segmentOf s.pos.val = .frames u) :
    exec (.pixelFrame v b g r) s = .next (serialize (frameEvent (frameWord v b g r) u) s) := by
  simp only [exec, execPixelFrame, hb, h]

/-- The pulses of a latch (R153). -/
theorem latchEvent_succ (k : Nat) : latchEvent (k + 1) = (.clk, decide (k % 2 = 0)) := by
  rw [latchEvent, if_neg (Nat.succ_ne_zero k), Nat.add_sub_cancel]
  split
  case isTrue h => rw [decide_eq_true h]
  case isFalse h => rw [decide_eq_false h]

/-- Cell `n` of a frame: its bit `31 - n`, then the pulse (R154). -/
theorem frameEvent_cell (f : BitVec 32) {n : Nat} (hn : n < 32) :
    frameEvent f (3 * n) = (.dat, f.getLsbD (31 - n)) ∧ frameEvent f (3 * n + 1) = (.clk, true) ∧
      frameEvent f (3 * n + 2) = (.clk, false) := by
  have hmod0 : 3 * n % 3 = 0 := by omega
  have hmod1 : (3 * n + 1) % 3 = 1 := by omega
  have hmod2 : (3 * n + 2) % 3 = 2 := by omega
  have hcell : 3 * n / 3 % 32 = n := by omega
  simp only [frameEvent, hmod0, hmod1, hmod2, hcell, and_self]

/-- Settles O21: the event of the latch at the position, written out as R151's write. -/
theorem latchWritesByPosition : Obligations.LatchWritesByPosition := by
  intro s hb
  have hexec {k : Nat} (hseg : segmentOf s.pos.val = .latch k) :
      exec .latch s = .next (afterLineWrite (latchEvent k) s) :=
    (exec_latch_inLatch hb hseg).trans (congrArg _ (serialize_eq_afterLineWrite _ hb))
  refine ⟨fun hp => ?_, fun k hp hk => ?_, fun k hp => ?_⟩
  · obtain hp | hp := hp
    · exact hexec (k := 0) (hp ▸ segmentOf_startLatch (by omega))
    · exact hexec (k := 0) (hp ▸ segmentOf_endLatch 0)
  · rw [← latchEvent_succ]
    exact hexec (hp ▸ segmentOf_startLatch (by omega))
  · have hpos : s.pos.val = 841 + (k + 1) := by omega
    rw [← latchEvent_succ]
    exact hexec (hpos ▸ segmentOf_endLatch (k + 1))

/-- Settles O22: the event of the frame at the position, written out as R151's write. -/
theorem pixelFrameWritesByPosition : Obligations.PixelFrameWritesByPosition := by
  intro v b g r s i n hb hn
  have hi := i.isLt
  have hexec {j : Nat} (hj : 3 * n + j < 96) (hp : s.pos.val = 73 + 96 * i.val + 3 * n + j) :
      exec (.pixelFrame v b g r) s = .next (afterLineWrite (frameEvent (frameWord v b g r) (3 * n + j)) s) := by
    have hpos : s.pos.val = 73 + (96 * i.val + (3 * n + j)) := by omega
    have hseg : segmentOf s.pos.val = .frames (96 * i.val + (3 * n + j)) := hpos ▸ segmentOf_frames (by omega)
    rw [exec_pixelFrame_inFrames v b g r hb hseg, frameEvent_period, serialize_eq_afterLineWrite _ hb]
  obtain ⟨hdata, hhigh, hlow⟩ := frameEvent_cell (frameWord v b g r) hn
  refine ⟨fun hp => ?_, fun hp => ?_, fun hp => ?_⟩
  · rw [hexec (j := 0) (by omega) hp, Nat.add_zero, hdata, frameWord]
  · rw [hexec (by omega) hp, hhigh]
  · rw [hexec (by omega) hp, hlow]

/-! ## Runs of line writes (R88, R89) -/

theorem step_inLatch {k : Nat} (hr : resetNow s = false) (hb : s.busy = true)
    (h : segmentOf s.pos.val = .latch k) : step s = .next (serialize (latchEvent k) (tickReset s)) := by
  have hsym : (tickReset s).symbol = .ok .latch := by simp only [State.symbol, tickReset_eq, h]
  simp only [step, fetch_busy s hr hb, fetchSymbol, hsym]
  exact exec_latch_inLatch (s := tickReset s) hb h

theorem step_inFrames {u : Nat} {p : Pixel} (hr : resetNow s = false) (hb : s.busy = true)
    (h : segmentOf s.pos.val = .frames u) (hp : s.slot (slotOf u) = some p) :
    step s = .next (serialize (frameEvent p.frame u) (tickReset s)) := by
  have hp' : (tickReset s).slot (slotOf u) = some p := hp
  have hpos : (tickReset s).pos = s.pos := rfl
  have hsym : (tickReset s).symbol = .ok (.pixelFrame p.br p.b p.g p.r) := by simp only [State.symbol, hpos, h, hp']
  simp only [step, fetch_busy s hr hb, fetchSymbol, hsym]
  exact exec_pixelFrame_inFrames (s := tickReset s) p.br p.b p.g p.r hb h

/-- A run of one step more at its end. -/
theorem run_concat {n : Nat} {u : State} (hrun : Host.Core.run Sys2Proof.core n s = .next t) (h : step t = .next u) :
    Host.Core.run Sys2Proof.core (n + 1) s = .next u := by
  induction n generalizing s with
  | zero =>
    cases hrun
    exact run_succ 0 h
  | succ n ih =>
    cases hs : step s with
    | next s' =>
      rw [run_succ n hs] at hrun
      rw [run_succ (n + 1) hs]
      exact ih hrun
    | fault f =>
      have hs' : Sys2Proof.core.step s = .fault f := hs
      simp only [Host.Core.run, hs', reduceCtorEq] at hrun
    | refused r =>
      have hs' : Sys2Proof.core.step s = .refused r := hs
      simp only [Host.Core.run, hs', reduceCtorEq] at hrun

/-- Reset is not asserted in the next `n` steps. -/
def State.NoReset (s : State) (n : Nat) : Prop := ∀ k < n, (s.env.rst.drop k).headD false = false

theorem noReset_of_take {m n : Nat} (h : ∀ b ∈ s.env.rst.take m, b = false) (hn : n ≤ m) : s.NoReset n := by
  intro k hk
  rw [List.headD_eq_head?_getD, List.head?_drop]
  cases hb : s.env.rst[k]? with
  | none => rfl
  | some b =>
    rw [← List.getElem?_take_of_lt (hk.trans_le hn)] at hb
    exact h b (List.mem_of_getElem? hb)

/-- While the send of `s` is in progress, the steps from its position on perform the events `f 0` to `f (n - 1)`. -/
def State.Performs (s : State) (f : Nat → Event) (n : Nat) : Prop :=
  ∀ k < n, ∀ t : State, t.pixels = s.pixels → t.busy = true → resetNow t = false → t.pos.val = s.pos.val + k →
    step t = .next (serialize (f k) (tickReset t))

/-- `s` after `n` steps of its send that wrote `es`, with the pins and the position they leave. -/
def State.wrote (s : State) (n : Nat) (es : List Event) (pos : Fin 914) (pin : Lines (Option Bool)) : State :=
  { s with pos := pos, pin := pin, W := s.W ++ es, env := { s.env with rst := s.env.rst.drop n } }

theorem map_range_concat {α : Type} (f : Nat → α) (n : Nat) :
    (List.range n).map f ++ [f n] = (List.range (n + 1)).map f := by
  rw [List.range_succ, List.map_append, List.map_singleton]

/-- One write more, whose place the serializer then moves on from (R158) or ends the send at (R159). -/
theorem lineWrite_wrote (e : Event) (n : Nat) (es : List Event) (pos : Fin 914) (pin : Lines (Option Bool)) :
    lineWrite e (tickReset (s.wrote n es pos pin)) =
      s.wrote (n + 1) (es ++ [e]) pos (lineWrite e (s.wrote n es pos pin)).pin := by
  simp only [lineWrite_eq, State.wrote, tickReset_eq, List.append_assoc, List.tail_drop]

/-- The serializer's advance of a send in progress. -/
theorem wrote_setSerializer (hb : s.busy = true) (n : Nat) (es : List Event) (pos pos' : Fin 914)
    (pin : Lines (Option Bool)) : (s.wrote n es pos pin).setSerializer true pos' = s.wrote n es pos' pin := by
  rw [← hb]
  rfl

/-- `n` steps of a send, short of its end, append the events they perform and change nothing else but the pins and the
position. -/
theorem State.Performs.run {f : Nat → Event} {n : Nat} (hf : s.Performs f n) (hb : s.busy = true)
    (hr : s.NoReset n) (hpos : s.pos.val + n ≤ 913) :
    ∃ pos pin, pos.val = s.pos.val + n ∧
      Host.Core.run Sys2Proof.core n s = .next (s.wrote n ((List.range n).map f) pos pin) := by
  induction n with
  | zero => exact ⟨s.pos, s.pin, rfl, by simp [Host.Core.run, State.wrote]⟩
  | succ n ih =>
    obtain ⟨pos, pin, hp, hrun⟩ := ih (fun k hk => hf k (Nat.lt_succ_of_lt hk))
      (fun k hk => hr k (Nat.lt_succ_of_lt hk)) (by omega)
    have hstep := hf n (Nat.lt_succ_self n) (s.wrote n ((List.range n).map f) pos pin) rfl hb
      (hr n (Nat.lt_succ_self n)) hp
    have hval : (pos + 1).val = s.pos.val + (n + 1) := by
      rw [Fin.val_add, Fin.val_one]
      omega
    have hne : pos ≠ 913 := fun h => by
      rw [h] at hval
      exact absurd hval (Nat.succ_ne_zero _).symm
    rw [serialize_step (tickReset (s.wrote n _ pos pin)) _ hne, lineWrite_wrote, map_range_concat,
      wrote_setSerializer hb] at hstep
    exact ⟨pos + 1, _, hval, run_concat hrun hstep⟩

/-- A latch's events, from its first position (R153, R156). -/
theorem performs_latch {n : Nat} (h : ∀ k < n, segmentOf (s.pos.val + k) = .latch k) :
    s.Performs latchEvent n :=
  fun k hk _ _ hb hr hp => step_inLatch hr hb (hp ▸ h k hk)

/-- A slot's events, from its first position (R154). -/
theorem performs_slot {i : Fin 8} {p : Pixel} (hpos : s.pos.val = 73 + 96 * i.val) (hp : s.slot i = some p) :
    s.Performs (frameEvent p.frame) 96 := by
  intro k hk t hpx hb hr ht
  have hi := i.isLt
  have hseg : segmentOf t.pos.val = .frames (96 * i.val + k) := by
    rw [ht, hpos, Nat.add_assoc]
    exact segmentOf_frames (by omega)
  have hslot : slotOf (96 * i.val + k) = i := by
    rw [← Nat.add_sub_cancel_left (n := 73) (m := 96 * i.val + k)]
    exact slotOf_frames (by omega) (by omega)
  have ht : t.slot (slotOf (96 * i.val + k)) = some p := by rw [hslot, State.slot, hpx, ← hp, State.slot]
  rw [step_inFrames hr hb hseg ht, frameEvent_period]

/-- Settles O25: the steps perform the events of the latch and of the slot in order; the last one of the end latch ends
the send. -/
theorem wireSymbolsRunWhole : Obligations.WireSymbolsRunWhole := by
  intro s hb hrst
  refine ⟨fun hp => ?_, fun hp => ?_, fun i p hp hi => ?_⟩
  · have hf : s.Performs latchEvent 73 := performs_latch fun k hk => by
      rw [hp, Nat.zero_add]
      exact segmentOf_startLatch hk
    obtain ⟨pos, pin, hpos, hrun⟩ := hf.run hb (noReset_of_take hrst (by decide)) (by omega)
    have h73 : pos = 73 := Fin.ext (hpos.trans (congrArg (· + 73) hp))
    rw [h73, ← latchEvents_eq] at hrun
    exact ⟨_, hrun, rfl⟩
  · have hseg : ∀ k, segmentOf (s.pos.val + k) = .latch k := fun k => by
      rw [hp]
      exact segmentOf_endLatch k
    have hr := noReset_of_take (n := 73) hrst (by decide)
    obtain ⟨pos, pin, hpos, hrun⟩ := (performs_latch fun k _ => hseg k).run (n := 72) hb
      (fun k hk => hr k (Nat.lt_succ_of_lt hk)) (by omega)
    have hlast := performs_latch (s := s) (n := 73) (fun k _ => hseg k) 72 (by decide)
      (s.wrote 72 ((List.range 72).map latchEvent) pos pin) rfl hb (hr 72 (by decide)) hpos
    have h913 : pos = 913 := Fin.ext (hpos.trans (congrArg (· + 72) hp))
    rw [serialize_last (tickReset (s.wrote 72 _ pos pin)) _ h913, lineWrite_wrote, map_range_concat,
      ← latchEvents_eq] at hlast
    exact ⟨_, run_concat hrun hlast, rfl⟩
  · have hlt := i.isLt
    obtain ⟨pos, pin, hpos, hrun⟩ := (performs_slot hp hi).run hb (noReset_of_take hrst le_rfl) (by omega)
    have hnext : pos = Fin.ofNat 914 (s.pos.val + 96) := Fin.ext (by
      rw [hpos, Fin.val_ofNat, Nat.mod_eq_of_lt (by omega)])
    rw [hnext, ← pixelEvents_eq] at hrun
    exact ⟨_, hrun, rfl⟩

end Sys2Proof.Machine
end

section
/-! PROOFS. `SETUP` in `Uninit`: the two acquisitions, the answers they take, and what the command leaves
(40_setup R101 to R106). -/

namespace Sys2Proof.Machine

variable {s : State}

/-! ## One acquisition (R102) -/

theorem OpenResult.handle_eq (a : OpenResult) : a.handle = if a = .ok then .ok else .failed := by
  cases a <;> rfl

theorem acquire_env (l : Line) (s : State) : (acquire l s).env = (openLine l s).2.env := by rw [acquire_eq]

/-- Acquiring a line moves on only the answers to come and the draws. -/
theorem acquire_env_frame (l : Line) (s : State) :
    (acquire l s).env = { s.env with acq := (acquire l s).env.acq, draws := (acquire l s).env.draws } := by
  obtain ⟨acq, draws, h⟩ := openLine_spec s l
  simp only [acquire_env, h, setEnv_env]

theorem openLine_answer_cons (l : Line) {a : OpenResult} {rest : List OpenResult} (h : s.env.acq = a :: rest) :
    (openLine l s).1 = a := by rw [openLine_cons s l h]

theorem acquire_env_cons (l : Line) {a : OpenResult} {rest : List OpenResult} (h : s.env.acq = a :: rest) :
    (acquire l s).env = { s.env with acq := rest } := by rw [acquire_env, openLine_cons s l h, setEnv_env]

theorem acquire_env_acq_nil (l : Line) (h : s.env.acq = []) : (acquire l s).env.acq = [] := by
  rw [acquire_env, openLine_nil s l h, setEnv_env, h]

/-! ## Both acquisitions, data first (R101) -/

/-- The state after both acquisitions: each handle has its answer, failures are logged data first, and else only the
answers to come and the draws move on. -/
theorem acquire_both_eq (s : State) :
    acquire .clk (acquire .dat s) = { s with
      h := { dat := (openLine .dat s).1.handle, clk := (openLine .clk (acquire .dat s)).1.handle }
      log := s.log ++ (if (openLine .dat s).1 = .failed then [.acqFail .dat] else []) ++
        (if (openLine .clk (acquire .dat s)).1 = .failed then [.acqFail .clk] else [])
      env := { s.env with
        acq := (acquire .clk (acquire .dat s)).env.acq, draws := (acquire .clk (acquire .dat s)).env.draws } } := by
  have henv := acquire_env_frame .clk (acquire .dat s)
  rw [acquire_env_frame .dat s] at henv
  rw [← henv, acquire_env, acquire_eq (acquire .dat s) .clk, acquire_eq s .dat]
  rfl

/-- Settles O12: both acquisitions, then the buffer filled and the mode set; an acquisition takes the head of the listed
answers. -/
theorem setupAcquiresFillsAndIsReady : Obligations.SetupAcquiresFillsAndIsReady := by
  intro s hb hm
  refine ⟨complete .ok (((acquire .clk (acquire .dat s)).mapSlots fun _ => initPixel).setMode .ready),
    (openLine .dat s).1, (openLine .clk (acquire .dat s)).1,
    (acquire .clk (acquire .dat s)).env.acq, (acquire .clk (acquire .dat s)).env.draws,
    ?_, fun i => slot_mapSlots (acquire .clk (acquire .dat s)) (fun _ => initPixel) i, ?_, ?_, ?_⟩
  · rw [exec, execSetup, whenIdle_idle s hb, whenUninit_uninit s hm]
  · rw [← OpenResult.handle_eq, ← OpenResult.handle_eq]
    conv_lhs => rw [acquire_both_eq]
    rfl
  · intro x y rest h
    have hdat := acquire_env_cons .dat h
    have hacq : (acquire .dat s).env.acq = y :: rest := by rw [hdat]
    have hclk := acquire_env_cons .clk hacq
    refine ⟨openLine_answer_cons .dat h, openLine_answer_cons .clk hacq, ?_, ?_⟩
    · rw [hclk]
    · rw [hclk, hdat]
  · intro x h
    have hacq : (acquire .dat s).env.acq = [] := by rw [acquire_env_cons .dat h]
    exact ⟨openLine_answer_cons .dat h, acquire_env_acq_nil .clk hacq⟩

end Sys2Proof.Machine
end

section
/-! PROOFS. The buffer commands in `Ready`, each with its frame (41_buffer_ops R121 to R130), and `SETPIXEL` as
`SETBRIGHT` and `SETPIXELK` (R128). -/

namespace Sys2Proof.Machine

variable {s : State}

/-! ## The draw of a brightness operand -/

/-- `s` after the draw that encoding `bf` makes where it has no code (30_encoding R84). -/
def State.drawn (s : State) (bf : Frac) : State := s.setEnv { s.env with draws := drawsAfter bf s }

theorem brightCode_eq_drawn (bf : Frac) (s : State) : brightCode bf s = (brightnessOf bf s, s.drawn bf) :=
  brightCode_eq s bf

/-! ## What each command leaves in `Ready` -/

theorem exec_setPixel_ready (i : Fin 8) (r g b : Int) (bf : Frac) (hb : s.busy = false) (hm : s.mode = .ready) :
    exec (.setPixel i.val r g b bf) s = .next (complete .ok
      ((s.drawn bf).setSlot i { r := chan8 r, g := chan8 g, b := chan8 b, br := brightnessOf bf s })) := by
  simp only [exec, execSetPixel, whenIdle_idle s hb, whenReady_ready s hm, atIndex, slotIndex_val, brightCode_eq_drawn]

theorem exec_setPixelK_ready (i : Fin 8) (r g b : Int) (hb : s.busy = false) (hm : s.mode = .ready) :
    exec (.setPixelK i.val r g b) s = .next (complete .ok
      (s.setSlot i { r := chan8 r, g := chan8 g, b := chan8 b, br := keptBrightness (s.slot i) })) :=
  writesSlot_setPixelK r g b s.env.cfg i s hb hm rfl

theorem exec_setAll_drawn (r g b : Int) (bf : Frac) (hb : s.busy = false) (hm : s.mode = .ready) :
    exec (.setAll r g b bf) s = .next (complete .ok
      ((s.drawn bf).mapSlots fun _ => { r := chan8 r, g := chan8 g, b := chan8 b, br := brightnessOf bf s })) := by
  simp only [exec, execSetAll, whenIdle_idle s hb, whenReady_ready s hm, brightCode_eq_drawn]

theorem exec_setBright_ready {i : Fin 8} {p : Pixel} (bf : Frac) (hb : s.busy = false) (hm : s.mode = .ready)
    (hi : s.slot i = some p) :
    exec (.setBright i.val bf) s = .next (complete .ok
      ((s.drawn bf).setSlot i { p with br := brightnessOf bf s })) := by
  simp only [exec, execSetBright, whenIdle_idle s hb, whenReady_ready s hm, atIndex, slotIndex_val, hi,
    brightCode_eq_drawn]

/-- The brightness a command keeps is the stored one (R123). -/
theorem keptBrightness_some (p : Pixel) : keptBrightness (some p) = p.br := rfl

/-- Where nothing is stored it is that of the initial pixel (R124). -/
theorem keptBrightness_none : keptBrightness none = 31 := rfl

/-! ## The written slots and the frame -/

/-- Settles O14: the slot is the encoded pixel, after at most one draw. -/
theorem setPixelReplacesTheSlot : Obligations.SetPixelReplacesTheSlot := fun i r g b bf s hb hm =>
  ⟨_, exec_setPixel_ready i r g b bf hb hm, slot_setSlot_self (s.drawn bf) i _,
    fun _ hj => slot_setSlot_ne (s.drawn bf) _ hj, rfl⟩

/-- Settles O15: the brightness kept is the stored code, and 31 where the slot has none. -/
theorem setPixelKKeepsTheBrightness : Obligations.SetPixelKKeepsTheBrightness := by
  intro i r g b s hb hm
  refine ⟨_, exec_setPixelK_ready i r g b hb hm, fun p hp => ?_, fun hnone => ?_,
    fun _ hj => slot_setSlot_ne s _ hj, rfl⟩
  · rw [slot_complete, slot_setSlot_self, hp, keptBrightness_some]
  · rw [slot_complete, slot_setSlot_self, hnone, keptBrightness_none]

/-- Settles O16: every slot is the one encoded pixel, after at most one draw. -/
theorem setAllReplacesEverySlot : Obligations.SetAllReplacesEverySlot := fun r g b bf s hb hm =>
  ⟨_, exec_setAll_drawn r g b bf hb hm, fun i => slot_mapSlots (s.drawn bf) (fun _ => _) i, rfl⟩

/-- Settles O17: the slot is the stored pixel with the encoded brightness, after at most one draw. -/
theorem setBrightWritesOnlyTheBrightness : Obligations.SetBrightWritesOnlyTheBrightness := fun i bf _ s hb hm hi =>
  ⟨_, exec_setBright_ready bf hb hm hi, slot_setSlot_self (s.drawn bf) i _,
    fun _ hj => slot_setSlot_ne (s.drawn bf) _ hj, rfl⟩

/-- Settles O19: each slot keeps its own brightness, and takes 31 where it has none. -/
theorem clearAllKeepsEachBrightness : Obligations.ClearAllKeepsEachBrightness := by
  intro s hb hm
  refine ⟨_, exec_clearAll_ready hb hm, fun i p hp => ?_, fun i hnone => ?_, rfl⟩
  · rw [slot_complete, slot_mapSlots, hp, keptBrightness_some]
  · rw [slot_complete, slot_mapSlots, hnone, keptBrightness_none]

/-! ## `SETBRIGHT` and `SETPIXELK` of one slot (R128 (c)) -/

/-- A draw sees nothing of a completed write to a slot, and so may come before it. -/
theorem drawn_complete_setSlot (bf : Frac) (i : Fin 8) (p : Pixel) (s : State) :
    (complete .ok (s.setSlot i p)).drawn bf = complete .ok ((s.drawn bf).setSlot i p) := rfl

theorem setSlot_setSlot (i : Fin 8) (p q : Pixel) (s : State) : (s.setSlot i p).setSlot i q = s.setSlot i q := by
  simp only [State.setSlot, Vector.set_set]

theorem complete_setSlot (c : Code) (i : Fin 8) (p : Pixel) (s : State) :
    (complete c s).setSlot i p = complete c (s.setSlot i p) := rfl

theorem complete_ok_twice (s : State) : complete .ok (complete .ok s) =
    { complete .ok s with env := { s.env with replies := s.env.replies ++ [.code .ok, .code .ok] } } :=
  congrArg (fun rs => { complete .ok s with env := { s.env with replies := rs } }) (List.append_assoc ..)

/-- Of two completed writes to a slot the second is left, and two codes returned. -/
theorem complete_setSlot_twice (i : Fin 8) (p q : Pixel) (s : State) :
    complete .ok ((complete .ok (s.setSlot i p)).setSlot i q) =
      { complete .ok (s.setSlot i q) with
        env := { s.env with replies := s.env.replies ++ [.code .ok, .code .ok] } } := by
  rw [complete_setSlot, setSlot_setSlot, complete_ok_twice, setSlot_env]

theorem exec_setPixelK_after_write (i : Fin 8) (r g b : Int) (p : Pixel) (hb : s.busy = false)
    (hm : s.mode = .ready) :
    exec (.setPixelK i.val r g b) (complete .ok (s.setSlot i p)) = .next
      { complete .ok (s.setSlot i { r := chan8 r, g := chan8 g, b := chan8 b, br := p.br }) with
        env := { s.env with replies := s.env.replies ++ [.code .ok, .code .ok] } } := by
  rw [exec_setPixelK_ready (s := complete .ok (s.setSlot i p)) i r g b hb hm, slot_complete, slot_setSlot_self,
    keptBrightness_some, complete_setSlot_twice]

theorem exec_setBright_after_write (i : Fin 8) (bf : Frac) (p : Pixel) (hb : s.busy = false) (hm : s.mode = .ready) :
    exec (.setBright i.val bf) (complete .ok (s.setSlot i p)) = .next
      { complete .ok ((s.drawn bf).setSlot i { p with br := brightnessOf bf s }) with
        env := { (s.drawn bf).env with replies := s.env.replies ++ [.code .ok, .code .ok] } } := by
  rw [exec_setBright_ready (s := complete .ok (s.setSlot i p)) bf hb hm (slot_setSlot_self s i p),
    drawn_complete_setSlot, complete_setSlot_twice]
  rfl

/-- Settles O60: in either order the slot is written twice, after one draw, and the second write is `SETPIXEL`'s:
`SETPIXELK` keeps the new brightness, and `SETBRIGHT` the new colours. -/
theorem setBrightAndSetPixelKAreSetPixel : Obligations.SetBrightAndSetPixelKAreSetPixel := by
  intro i r g b bf s hb hm hi
  obtain ⟨p, hp⟩ := Option.isSome_iff_exists.mp hi
  refine ⟨_, _, exec_setPixel_ready i r g b bf hb hm, ?_, ?_, rfl⟩
  · rw [execSeq_cons (exec_setBright_ready bf hb hm hp),
      execSeq_cons (exec_setPixelK_after_write (s := s.drawn bf) i r g b _ hb hm)]
    rfl
  · rw [execSeq_cons (exec_setPixelK_ready i r g b hb hm), execSeq_cons (exec_setBright_after_write i bf _ hb hm)]
    rfl

end Sys2Proof.Machine
end

section
/-! PROOFS. `SEND`, from its admission to its last line write: the line write (42_send R151), the step of a send (R152,
R158), and the 914 steps as the one transition of R150 (R160). -/

namespace Sys2Proof.Machine

variable {s : State}

/-! ## The line write (R151) -/

/-- A write reaches the pin of its own line, through a working handle. -/
theorem drive_get (h : Lines Handle) (pin : Lines (Option Bool)) (l m : Line) (v : Bool) :
    (drive h pin (l, v)).get m = if m = l ∧ h.get l = .ok then some v else pin.get m := by
  by_cases hl : h.get l = .ok
  · rw [drive_ok h pin v hl]
    by_cases hm : m = l
    · rw [if_pos ⟨hm, hl⟩, hm, Lines.get_set_self]
    · rw [if_neg fun hc => hm hc.1, Lines.get_set_ne pin _ hm]
  · rw [drive_not_ok h pin v hl, if_neg fun hc => hl hc.2]

/-- Settles O26: the write as `lineWrite_eq` has it, and its pins as `drive_get` has them. -/
theorem lineWriteIsAlwaysRecorded : Obligations.LineWriteIsAlwaysRecorded := fun l v s =>
  ⟨lineWrite_W s (l, v), fun m => lineWrite_pin_drive (l, v) s ▸ drive_get s.h s.pin l m v,
    by rw [lineWrite_eq]⟩

/-- After line writes the pin of a working line is at the last level written to it; any other pin stays. -/
theorem lineWrites_pin_get (es : List Event) (s : State) (l : Line) :
    (lineWrites es s).pin.get l =
      if s.h.get l = .ok then (lastWrite l es).or (s.pin.get l) else s.pin.get l := by
  rw [lineWrites_pin]
  induction es using List.reverseRecOn with
  | nil => exact (ite_self _).symm
  | append_singleton es e ih =>
    rw [List.foldl_concat, drive_get, ih, lastWrite_concat]
    by_cases hl : l = e.1
    · subst hl
      by_cases hok : s.h.get e.1 = .ok <;> simp [hok]
    · rw [if_neg fun hc => hl hc.1, if_neg (Ne.symm hl)]

/-! A line write neither reads nor changes the serializer's place or `env`, so it commutes with setting them. -/

theorem lineWrite_setSerializer (e : Event) (b : Bool) (pos : Fin 914) (s : State) :
    lineWrite e (s.setSerializer b pos) = (lineWrite e s).setSerializer b pos := by
  simp only [lineWrite_eq, State.setSerializer]

theorem lineWrite_setEnv (e : Event) (x : Env) (s : State) :
    lineWrite e (s.setEnv x) = (lineWrite e s).setEnv x := by
  simp only [lineWrite_eq, State.setEnv]

theorem lineWrites_setEnv (es : List Event) (x : Env) (s : State) :
    lineWrites es (s.setEnv x) = (lineWrites es s).setEnv x := by
  induction es generalizing s with
  | nil => rfl
  | cons e es ih => rw [lineWrites_cons, lineWrite_setEnv, ih, lineWrites_cons]

theorem lineWrites_setSerializer (es : List Event) (b : Bool) (pos : Fin 914) (s : State) :
    lineWrites es (s.setSerializer b pos) = (lineWrites es s).setSerializer b pos := by
  induction es generalizing s with
  | nil => rfl
  | cons e es ih => rw [lineWrites_cons, lineWrite_setSerializer, ih, lineWrites_cons]

/-! ## The wire symbol of a step (R152) -/

theorem symbol_inLatch {k : Nat} (h : segmentOf s.pos.val = .latch k) : s.symbol = .ok .latch := by
  simp only [State.symbol, h]

theorem symbol_inFrames {u : Nat} {p : Pixel} (h : segmentOf s.pos.val = .frames u)
    (hp : s.slot (slotOf u) = some p) : s.symbol = .ok (.pixelFrame p.br p.b p.g p.r) := by
  simp only [State.symbol, h, hp]

theorem symbol_undefined {u : Nat} (h : segmentOf s.pos.val = .frames u) (hp : s.slot (slotOf u) = none) :
    s.symbol = .error (.undefinedSlot (slotOf u)) := by
  simp only [State.symbol, h, hp]

theorem step_symbol {i : Instr} (hr : resetNow s = false) (hb : s.busy = true) (h : s.symbol = .ok i) :
    step s = exec i (tickReset s) := by
  have ht : (tickReset s).symbol = .ok i := h
  simp only [step, fetch_busy s hr hb, fetchSymbol, ht]

theorem step_noSymbol {f : Fault} (hr : resetNow s = false) (hb : s.busy = true) (h : s.symbol = .error f) :
    step s = .fault f := by
  have ht : (tickReset s).symbol = .error f := h
  simp only [step, fetch_busy s hr hb, fetchSymbol, ht]

/-- Settles O4: the symbol of the segment the position lies in. -/
theorem stepRunsTheWireSymbol : Obligations.StepRunsTheWireSymbol := by
  intro s hr hb
  refine ⟨fun hp => ?_, fun i hlo hhi => ?_⟩
  · obtain ⟨-, hseg⟩ | ⟨_, _, -⟩ | ⟨-, hseg⟩ := segmentOf_cases s.pos.val
    · exact step_symbol hr hb (symbol_inLatch hseg)
    · omega
    · exact step_symbol hr hb (symbol_inLatch hseg)
  · have hi := i.isLt
    have hslot := slotOf_frames hlo hhi
    have hseg : segmentOf s.pos.val = .frames (s.pos.val - 73) := by
      obtain ⟨_, -⟩ | ⟨-, -, hseg⟩ | ⟨_, -⟩ := segmentOf_cases s.pos.val
      · omega
      · exact hseg
      · omega
    refine ⟨fun p hp => step_symbol hr hb (symbol_inFrames hseg (hslot.symm ▸ hp)), fun hp => ?_⟩
    rw [step_noSymbol hr hb (symbol_undefined hseg (hslot.symm ▸ hp)), hslot]

/-! ## The last level a send writes (R165) -/

theorem lastWrite_append (l : Line) (xs ys : List Event) :
    lastWrite l (xs ++ ys) = (lastWrite l ys).or (lastWrite l xs) := by
  induction ys using List.reverseRecOn with
  | nil => rw [List.append_nil]; rfl
  | append_singleton ys e ih =>
    rw [← List.append_assoc, lastWrite_concat, lastWrite_concat, ih]
    split <;> rfl

/-- A latch ends with both lines low (R89). -/
theorem lastWrite_latchEvents (l : Line) : lastWrite l latchEvents = some false := by
  cases l <;> decide +kernel

/-- So does a send, whose end is a latch (R156). -/
theorem lastWrite_sendEvents (l : Line) (p : Fin 8 → Pixel) : lastWrite l (sendEvents p) = some false := by
  rw [sendEvents, lastWrite_append, lastWrite_latchEvents, Option.some_or]

/-- Settles O47: between sends a trace that is not empty ends with a whole send. -/
theorem pinsAreLowBetweenSends : Obligations.PinsAreLowBetweenSends := by
  intro s l hinv hpin ⟨sent, p, hW, _⟩ hb hl hne
  rw [hinv.idlePos hb, Fin.val_zero, List.take_zero, List.append_nil] at hW
  rw [hpin l, if_pos hl, hW]
  cases sent using List.reverseRecOn with
  | nil => exact absurd hW hne
  | append_singleton sent q =>
    rw [List.flatMap_append, List.flatMap_singleton, lastWrite_append, lastWrite_sendEvents, Option.some_or]

/-! ## The steps of a send (R158 to R160) -/

/-- Settles O23: `SEND` passes both checks. -/
theorem sendIsAdmitted : Obligations.SendIsAdmitted := fun s hb hm => by
  rw [exec, execSend, whenIdle_idle s hb, whenReady_ready s hm]
  rfl

/-- `s` after `n` steps of a send of `p`: its first `n` line writes, the serializer at position `n`, and the reset input
moved on. -/
def State.midSend (s : State) (p : Fin 8 → Pixel) (n : Nat) : State :=
  ((lineWrites ((sendEvents p).take n) s).setSerializer true (Fin.ofNat 914 n)).setEnv
    { s.env with rst := s.env.rst.drop n }

theorem midSend_zero (p : Fin 8 → Pixel) : s.midSend p 0 = { s with busy := true, pos := 0 } := rfl

/-- The line write of the next step, before the serializer moves on. -/
theorem lineWrite_midSend (p : Fin 8 → Pixel) {n : Nat} (hn : n < 914) :
    lineWrite (ev n p) (tickReset (s.midSend p n)) =
      ((lineWrites ((sendEvents p).take (n + 1)) s).setSerializer true (Fin.ofNat 914 n)).setEnv
        { s.env with rst := s.env.rst.drop (n + 1) } := by
  have htick : tickReset (s.midSend p n) =
      ((lineWrites ((sendEvents p).take n) s).setSerializer true (Fin.ofNat 914 n)).setEnv
        { s.env with rst := s.env.rst.drop (n + 1) } := by
    rw [← List.tail_drop]
    rfl
  rw [htick, lineWrite_setEnv, lineWrite_setSerializer, sendEvents_take_succ p hn, lineWrites_append]
  rfl

theorem slot_lineWrites (es : List Event) (s : State) (i : Fin 8) : (lineWrites es s).slot i = s.slot i := by
  obtain ⟨pin, h⟩ := lineWrites_spec s es
  rw [h]
  rfl

/-- The step at position `n` performs the send's event `n`. -/
theorem step_midSend {p : Fin 8 → Pixel} (hp : s.Holds p) {n : Nat} (hn : n < 914) (hr : s.NoReset 914) :
    step (s.midSend p n) = .next (serialize (ev n p) (tickReset (s.midSend p n))) := by
  have hpos : (s.midSend p n).pos.val = n := Nat.mod_eq_of_lt hn
  have hholds : (s.midSend p n).Holds p := fun i => (slot_lineWrites _ s i).trans (hp i)
  have h := step_busy (s.midSend p n) (hr n hn) rfl hholds
  rwa [hpos] at h

/-- Short of its end, a send is at the state its steps so far lead to. -/
theorem run_midSend {p : Fin 8 → Pixel} (hp : s.Holds p) (hr : s.NoReset 914) {n : Nat} (hn : n ≤ 913) :
    Host.Core.run Sys2Proof.core n (s.midSend p 0) = .next (s.midSend p n) := by
  induction n with
  | zero => rfl
  | succ n ih =>
    have hne : (tickReset (s.midSend p n)).pos ≠ 913 := fun h => by
      have hv : n % 914 = 913 := congrArg Fin.val h
      omega
    have hnext : (tickReset (s.midSend p n)).pos + 1 = Fin.ofNat 914 (n + 1) := Fin.ext (by
      rw [Fin.val_add]
      exact (Nat.add_mod n 1 914).symm)
    have hstep := step_midSend hp (n := n) (by omega) hr
    rw [serialize_step _ _ hne, lineWrite_midSend p (by omega), hnext] at hstep
    exact run_concat (ih (by omega)) hstep

/-- The last step of a send ends it, at the result of R150's one transition. -/
theorem serialize_midSend_last (p : Fin 8 → Pixel) (hb : s.busy = false) :
    serialize (ev 913 p) (tickReset (s.midSend p 913)) =
      sendWhole p { s with pos := 0, env := { s.env with rst := s.env.rst.drop 914 } } := by
  have hfull : (sendEvents p).take (913 + 1) = sendEvents p := List.take_of_length_le (sendEvents_length p).le
  have hstart : { s with pos := 0, env := { s.env with rst := s.env.rst.drop 914 } } =
      (s.setSerializer false 0).setEnv { s.env with rst := s.env.rst.drop 914 } := by
    rw [← hb]
    rfl
  have hlast : (tickReset (s.midSend p 913)).pos = 913 := rfl
  rw [serialize_last _ _ hlast, lineWrite_midSend p (by decide), hfull, hstart, sendWhole, lineWrites_setEnv,
    lineWrites_setSerializer]
  generalize lineWrites (sendEvents p) s = t
  rfl

/-- R150's one transition, written out but for the pins. -/
theorem sendWhole_eq (p : Fin 8 → Pixel) (s : State) :
    sendWhole p s = { s with
      pin := (sendWhole p s).pin
      W := s.W ++ sendEvents p
      last := .ok
      env := { s.env with replies := s.env.replies ++ [.code .ok] } } := by
  obtain ⟨pin, h⟩ := lineWrites_spec s (sendEvents p)
  rw [sendWhole, h]
  rfl

/-- Settles O24: the steps lead through `midSend`, and the last one to R150's one transition. -/
theorem sendRunsToTheWholeSend : Obligations.SendRunsToTheWholeSend := by
  intro s p hb hm hp hrst
  have hr : s.NoReset 914 := noReset_of_take hrst le_rfl
  refine ⟨sendIsAdmitted s hb hm, _, ?_, rfl, fun l => ?_, sendWhole_eq p _⟩
  · rw [← midSend_zero p, ← serialize_midSend_last p hb]
    exact run_concat (run_midSend hp hr le_rfl) (step_midSend hp (by decide) hr)
  · rw [sendWhole, complete_pin, lineWrites_pin_get, lastWrite_sendEvents, Option.some_or]

end Sys2Proof.Machine
end

section
/-! PROOFS. What a send writes: by position (42_send R152 to R156), as cells of one data write and one pulse, and in
numbers (R157, R164). -/

namespace Sys2Proof.Machine

/-! ## By position -/

/-- Settles O41: the start latch, the eight slots and the end latch are the three segments. -/
theorem pseudocodeIsThePositions : Obligations.PseudocodeIsThePositions := sendEvents_eq_map_ev

/-- The three events of cell `n` of slot `i` (R154). -/
theorem ev_cell (p : Fin 8 → Pixel) (i : Fin 8) {n : Nat} (hn : n < 32) :
    ev (73 + 96 * i.val + 3 * n) p = (.dat, (p i).frame.getLsbD (31 - n)) ∧
      ev (73 + 96 * i.val + 3 * n + 1) p = (.clk, true) ∧ ev (73 + 96 * i.val + 3 * n + 2) p = (.clk, false) := by
  have hev (j : Nat) (hj : 3 * n + j < 96) :
      ev (73 + 96 * i.val + 3 * n + j) p = frameEvent (p i).frame (3 * n + j) := by
    rw [← ev_slot p i hj]
    exact congrArg (ev · p) (by omega)
  obtain ⟨hdata, hhigh, hlow⟩ := frameEvent_cell (p i).frame hn
  exact ⟨(hev 0 (by omega)).trans hdata, (hev 1 (by omega)).trans hhigh, (hev 2 (by omega)).trans hlow⟩

/-- Settles O39: the start latch and the end latch event by event, and the cells between them. -/
theorem eventAtEachPosition : Obligations.EventAtEachPosition := by
  refine fun p => ⟨ev_startLatch p (by decide), ev_endLatch p 0, fun k hk => ⟨?_, ?_⟩, fun i n hn => ev_cell p i hn⟩
  · rw [ev_startLatch p (by omega), latchEvent_succ]
  · rw [show k + 842 = 841 + (k + 1) by omega, ev_endLatch, latchEvent_succ]

/-- The bits of a frame by byte, the three constant bits of the brightness byte on top (R155). -/
theorem frame_getLsbD (p : Pixel) {t : Nat} (ht : t ≤ 7) :
    p.frame.getLsbD (24 + t) = (if 5 ≤ t then true else p.br.getLsbD t) ∧ p.frame.getLsbD (16 + t) = p.b.getLsbD t ∧
      p.frame.getLsbD (8 + t) = p.g.getLsbD t ∧ p.frame.getLsbD (0 + t) = p.r.getLsbD t := by
  have htop : ∀ (v : BitVec 5) (k : Fin 8),
      (framePrefixByte ||| v.setWidth 8).getLsbD k = if 5 ≤ k.val then true else v.getLsbD k := by decide
  obtain ⟨-, -, hb, hg, hr⟩ := frameWord_fields p.br p.b p.g p.r
  have ht8 : t < 8 := by omega
  exact ⟨(getLsbD_of_slice (frame_brightnessByte p) ht8).trans (htop p.br ⟨t, ht8⟩), getLsbD_of_slice hb ht8,
    getLsbD_of_slice hg ht8, getLsbD_of_slice hr ht8⟩

/-- Settles O40: the data bit of a cell is a bit of the frame, and so a bit of one of its four bytes. -/
theorem dataBitOfEachCell : Obligations.DataBitOfEachCell := by
  intro p i t ht
  obtain ⟨hbr, hb, hg, hr⟩ := frame_getLsbD (p i) ht
  have hcell {n j : Nat} (hn : n < 32) (hj : 31 - n = j) {x : Bool} (hx : (p i).frame.getLsbD j = x) :
      ev (73 + 96 * i.val + 3 * n) p = (.dat, x) := by
    rw [(ev_cell p i hn).1, hj, hx]
  exact ⟨hcell (by omega) (by omega) hbr, hcell (by omega) (by omega) hb, hcell (by omega) (by omega) hg,
    hcell (by omega) (by omega) hr⟩

/-! ## The frame segment of the stream, by bytes (R164) -/

/-- The data bits of the frame segment: the eight frames in slot order, most significant bit first (R163). -/
def frameStream (p : Fin 8 → Pixel) : List Bool := (List.finRange 8).flatMap fun i => frameBits (p i).frame

theorem bitstream_eq (p : Fin 8 → Pixel) :
    bitstream p = List.replicate 36 false ++ frameStream p ++ List.replicate 36 false := rfl

/-- The bits of byte `k` of a frame, from the top. -/
theorem byteBits_slice (f : BitVec 32) (k : Fin 4) :
    byteBits (f.extractLsb' (24 - 8 * k.val) 8) = (List.range 8).map fun u => f.getLsbD (31 - (8 * k.val + u)) := by
  match k with
  | 0 | 1 | 2 | 3 => simp [byteBits, List.range_succ]

/-- The bits of a slot's frame are those of its four bytes, in wire order (R86). -/
theorem frameBits_eq (p : Pixel) :
    frameBits p.frame = [framePrefixByte ||| p.br.setWidth 8, p.b, p.g, p.r].flatMap byteBits := by
  obtain ⟨-, -, hb, hg, hr⟩ : _ ∧ _ ∧ p.frame.extractLsb' 16 8 = p.b ∧ p.frame.extractLsb' 8 8 = p.g ∧
    p.frame.extractLsb' 0 8 = p.r := frameWord_fields p.br p.b p.g p.r
  calc frameBits p.frame
      = (List.finRange 4).flatMap fun k => byteBits (p.frame.extractLsb' (24 - 8 * k.val) 8) := by
        simp only [byteBits_slice]
        exact (flatMap_finRange_map_range 8 (fun n => p.frame.getLsbD (31 - n)) 4).symm
    _ = [framePrefixByte ||| p.br.setWidth 8, p.b, p.g, p.r].flatMap byteBits := by
        rw [← frame_brightnessByte, ← hb, ← hg, ← hr]
        rfl

theorem frameStream_eq_bytes (p : Fin 8 → Pixel) : frameStream p = (frameBytes p).flatMap byteBits := by
  simp only [frameStream, frameBits_eq, frameBytes, List.flatMap_assoc]

/-- Settles O46: the frames of the stream, byte by byte. -/
theorem frameSegmentIsThirtyTwoBytes : Obligations.FrameSegmentIsThirtyTwoBytes := fun p =>
  ⟨rfl, frameStream_eq_bytes p ▸ bitstream_eq p⟩

theorem frameStream_length (p : Fin 8 → Pixel) : (frameStream p).length = 256 := by
  simp [frameStream, frameBits, List.length_flatMap]

theorem bitstream_length (p : Fin 8 → Pixel) : (bitstream p).length = 328 := by
  simp only [bitstream_eq, List.length_append, List.length_replicate, frameStream_length]

/-! ## Cells (R157) -/

/-- One data write and one pulse. -/
def cell (v : Bool) : List Event := (.dat, v) :: pulse

/-- `n` pulses. -/
def pulses (n : Nat) : List Event := (List.replicate n pulse).flatten

theorem pulses_succ (n : Nat) : pulses (n + 1) = pulse ++ pulses n := rfl

theorem pulses_add (m n : Nat) : pulses (m + n) = pulses m ++ pulses n := by
  rw [pulses, List.replicate_add, List.flatten_append, pulses, pulses]

theorem latchEvents_eq_pulses : latchEvents = (.dat, false) :: pulses 36 := rfl

/-- A slot writes one cell for each bit of its frame. -/
theorem pixelEvents_eq_cells (p : Pixel) : pixelEvents p = (frameBits p.frame).flatMap cell := by
  rw [frameBits_eq]
  rfl

/-- A send is a latch, the cells of the frame segment, and a latch. -/
theorem sendEvents_eq_cells (p : Fin 8 → Pixel) :
    sendEvents p = latchEvents ++ (frameStream p).flatMap cell ++ latchEvents := by
  simp only [sendEvents, pixelEvents_eq_cells, frameStream, List.flatMap_assoc]

theorem filter_clk_pulses (n : Nat) : ((pulses n).filter fun e => e.1 == .clk) = pulses n := by
  induction n with
  | zero => rfl
  | succ n ih => rw [pulses_succ, List.filter_append, ih]; rfl

theorem filter_clk_cells (bits : List Bool) :
    ((bits.flatMap cell).filter fun e => e.1 == .clk) = pulses bits.length := by
  induction bits with
  | nil => rfl
  | cons v bits ih =>
    rw [List.flatMap_cons, List.filter_append, ih, List.length_cons, pulses_succ]
    rfl

theorem filter_dat_pulses (n : Nat) : ((pulses n).filter fun e => e.1 == .dat) = [] := by
  induction n with
  | zero => rfl
  | succ n ih => rw [pulses_succ, List.filter_append, ih]; rfl

theorem filter_dat_cells (bits : List Bool) :
    ((bits.flatMap cell).filter fun e => e.1 == .dat) = bits.map fun v => (.dat, v) := by
  induction bits with
  | nil => rfl
  | cons v bits ih =>
    rw [List.flatMap_cons, List.filter_append, ih]
    rfl

/-- The clock writes of a send are one pulse after another (R157). -/
theorem filter_clk_sendEvents (p : Fin 8 → Pixel) : ((sendEvents p).filter fun e => e.1 == .clk) = pulses 328 := by
  have hlatch : (latchEvents.filter fun e => e.1 == .clk) = pulses 36 := filter_clk_pulses 36
  rw [sendEvents_eq_cells, List.filter_append, List.filter_append, hlatch, filter_clk_cells, frameStream_length,
    ← pulses_add, ← pulses_add]

/-- The data writes of a send: one for each latch, one for each bit of a frame (R157). -/
theorem filter_dat_sendEvents (p : Fin 8 → Pixel) : ((sendEvents p).filter fun e => e.1 == .dat) =
    (.dat, false) :: ((frameStream p).map fun v => (.dat, v)) ++ [(.dat, false)] := by
  have hlatch : (latchEvents.filter fun e => e.1 == .dat) = [(.dat, false)] :=
    congrArg (((.dat, false) : Event) :: ·) (filter_dat_pulses 36)
  rw [sendEvents_eq_cells, List.filter_append, List.filter_append, hlatch, filter_dat_cells]
  rfl

/-- Settles O42: the counts of the latches and of the 256 cells between them. -/
theorem countsOfOneSend : Obligations.CountsOfOneSend := by
  refine fun p => ⟨sendEvents_length p, filter_clk_sendEvents p, ?_, frameStream p, frameStream_length p,
    sendEvents_eq_cells p⟩
  rw [filter_dat_sendEvents, List.length_append, List.length_cons, List.length_map, frameStream_length]
  rfl

end Sys2Proof.Machine
end

section
/-! PROOFS. What the strip sees of a send through working handles: the bits at the rising edges of the clock (42_send R163,
R166), its falling edges (R166), and that data changes only while the clock is low (R162). -/

namespace Sys2Proof.Machine

variable (p : Fin 8 → Pixel) (k : Nat) (pin : Lines (Option Bool))

/-- A send after its first data write and pulse: the other 35 pulses of the start latch, the frames, the end latch. -/
def sendRest (p : Fin 8 → Pixel) : List Event := pulses 35 ++ (frameStream p).flatMap cell ++ latchEvents

theorem sendEvents_eq_cell_rest : sendEvents p = cell false ++ sendRest p := by
  rw [sendEvents_eq_cells, sendRest, latchEvents_eq_pulses, pulses_succ 35]
  simp only [cell, List.cons_append, List.append_assoc]

theorem bitstream_eq_cons :
    bitstream p = false :: (List.replicate 35 false ++ frameStream p ++ List.replicate 36 false) := by
  rw [bitstream_eq, List.replicate_succ (n := 35), List.cons_append, List.cons_append]

theorem bitstream_tail :
    (bitstream p).tail = List.replicate 35 false ++ frameStream p ++ List.replicate 36 false := by
  rw [bitstream_eq_cons, List.tail_cons]

theorem cons_bitstream_tail : false :: (bitstream p).tail = bitstream p := by
  rw [bitstream_tail, ← bitstream_eq_cons]

/-! ## The samples, write by write (R163) -/

/-- The pins between cells: the last data bit, and the clock low. -/
def clockLow (v : Bool) : Lines (Option Bool) := { dat := some v, clk := some false }

/-- A cell has a rising edge where it finds the clock low, and leaves the clock low. -/
theorem risingSamples_cell (v : Bool) :
    risingSamples bothOk k pin (cell v) = if seen pin .clk (k + 1) = false then [v] else [] :=
  if_congr (and_iff_right rfl) rfl rfl

theorem drive_cell (v : Bool) : (cell v).foldl (drive bothOk) pin = clockLow v := rfl

/-- Through working handles, from the pins `pin`, the writes `es` show `bits` at the rising edges and leave the pins
`pin'`. -/
structure Shows (pin : Lines (Option Bool)) (es : List Event) (bits : List Bool) (pin' : Lines (Option Bool)) :
    Prop where
  samples : ∀ k, risingSamples bothOk k pin es = bits
  pins : es.foldl (drive bothOk) pin = pin'

section Shows

variable {pin} {pin' pin'' : Lines (Option Bool)} {xs ys : List Event} {bs cs : List Bool}

theorem Shows.nil : Shows pin [] [] pin := ⟨fun _ => rfl, rfl⟩

theorem Shows.append (hx : Shows pin xs bs pin') (hy : Shows pin' ys cs pin'') :
    Shows pin (xs ++ ys) (bs ++ cs) pin'' where
  samples k := by rw [risingSamples_append, hx.samples, hx.pins, hy.samples]
  pins := by rw [List.foldl_append, hx.pins, hy.pins]

/-- A cell that finds the clock low shows its bit. -/
theorem shows_cell (hc : pin.clk = some false) (v : Bool) : Shows pin (cell v) [v] (clockLow v) where
  samples k := by rw [risingSamples_cell, if_pos (seen_some pin (k + 1) (l := .clk) hc)]
  pins := drive_cell pin v

/-- A cell that finds the clock high shows nothing (R166). -/
theorem shows_cell_high (hc : pin.clk = some true) (v : Bool) : Shows pin (cell v) [] (clockLow v) where
  samples k := by
    rw [risingSamples_cell, seen_some pin (k + 1) (l := .clk) hc]
    rfl
  pins := drive_cell pin v

/-- A pulse shows the data bit that stands. -/
theorem shows_pulse (v : Bool) : Shows (clockLow v) pulse [v] (clockLow v) := ⟨fun _ => rfl, rfl⟩

theorem shows_pulses (v : Bool) (n : Nat) : Shows (clockLow v) (pulses n) (List.replicate n v) (clockLow v) := by
  induction n with
  | zero => exact .nil
  | succ n ih => exact (shows_pulse v).append ih

theorem shows_cells (v : Bool) (bits : List Bool) :
    Shows (clockLow v) (bits.flatMap cell) bits (clockLow (bits.getLastD v)) := by
  induction bits generalizing v with
  | nil => exact .nil
  | cons b bits ih =>
    rw [List.getLastD_cons]
    exact (shows_cell rfl b).append (ih b)

/-- A latch that finds the clock low shows 36 zeros (R89). -/
theorem shows_latch (v : Bool) :
    Shows (clockLow v) latchEvents (List.replicate 36 false) (clockLow false) :=
  (shows_cell rfl false).append (shows_pulses false 35)

theorem shows_sendRest : Shows (clockLow false) (sendRest p) (bitstream p).tail (clockLow false) := by
  rw [bitstream_tail]
  exact ((shows_pulses false 35).append (shows_cells false (frameStream p))).append (shows_latch _)

/-- A send that finds the clock low shows its whole stream (R163). -/
theorem shows_send (hc : pin.clk = some false) :
    Shows pin (sendEvents p) (bitstream p) (clockLow false) := by
  rw [sendEvents_eq_cell_rest, ← cons_bitstream_tail]
  exact (shows_cell hc false).append (shows_sendRest p)

/-- A send that finds the clock high loses the first bit (R166). -/
theorem shows_send_high (hc : pin.clk = some true) :
    Shows pin (sendEvents p) (bitstream p).tail (clockLow false) := by
  rw [sendEvents_eq_cell_rest]
  exact (shows_cell_high hc false).append (shows_sendRest p)

theorem shows_sends (sent : List (Fin 8 → Pixel)) :
    Shows (clockLow false) (sent.flatMap sendEvents) (sent.flatMap bitstream) (clockLow false) := by
  induction sent with
  | nil => exact .nil
  | cons p sent ih => exact (shows_send p rfl).append ih

end Shows

/-- A send leaves both working lines low, whatever it finds. -/
theorem drive_sendEvents : (sendEvents p).foldl (drive bothOk) pin = clockLow false := by
  rw [sendEvents_eq_cell_rest, List.foldl_append, drive_cell, (shows_sendRest p).pins]

/-- What follows a send is sampled from low lines. -/
theorem risingSamples_sendEvents_append (es : List Event) :
    ∃ j, risingSamples bothOk k pin (sendEvents p ++ es) =
      risingSamples bothOk k pin (sendEvents p) ++ risingSamples bothOk j (clockLow false) es :=
  ⟨_, by rw [risingSamples_append, drive_sendEvents]⟩

/-- Whatever a send finds, an unspecified clock too, it shows its stream or its stream without the first bit (R166). -/
theorem risingSamples_sendEvents :
    risingSamples bothOk k pin (sendEvents p) = bitstream p ∨
      risingSamples bothOk k pin (sendEvents p) = (bitstream p).tail := by
  rw [sendEvents_eq_cell_rest, risingSamples_append, risingSamples_cell, drive_cell, (shows_sendRest p).samples]
  split
  · exact .inl (cons_bitstream_tail p)
  · exact .inr rfl

/-- Settles O43: a send that finds the clock low. -/
theorem sampledBitsAreTheStream : Obligations.SampledBitsAreTheStream := fun k _ p =>
  ⟨(sampledBits_bothOk _ k _).trans ((shows_send p rfl).samples k), bitstream_length p⟩

/-! ## Falling edges (R166) -/

/-- Only clock writes make falling edges. -/
theorem fallingEdges_filter (clk : Bool) (es : List Event) :
    fallingEdges clk (es.filter fun e => e.1 == .clk) = fallingEdges clk es := by
  induction es generalizing clk with
  | nil => rfl
  | cons e es ih =>
    obtain ⟨l, v⟩ := e
    cases l with
    | dat => exact ih clk
    | clk => exact congrArg (_ + ·) (ih v)

/-- Each pulse makes one falling edge, whatever level it finds. -/
theorem fallingEdges_pulses (clk : Bool) (n : Nat) : fallingEdges clk (pulses n) = n := by
  induction n generalizing clk with
  | zero => rfl
  | succ n ih =>
    rw [pulses_succ]
    simp only [pulse, List.cons_append, List.nil_append, fallingEdges, ih]
    cases clk <;> simp [Nat.add_comm]

theorem fallingEdges_sendEvents (clk : Bool) : fallingEdges clk (sendEvents p) = 328 := by
  rw [← fallingEdges_filter, filter_clk_sendEvents, fallingEdges_pulses]

/-- Settles O44: the first cell of a send is where an edge may be lost; everything after it finds the clock low. -/
theorem firstSendMayLoseOneEdge : Obligations.FirstSendMayLoseOneEdge := by
  intro k pin p q
  simp only [sampledBits_bothOk]
  refine ⟨fun hc => ?_, fallingEdges_sendEvents p true, ?_, fun s sent hh hW => ?_⟩
  · rw [(shows_send_high p hc).samples, List.length_tail, bitstream_length]
    exact ⟨rfl, rfl⟩
  · obtain ⟨j, hj⟩ := risingSamples_sendEvents_append p k pin (sendEvents q)
    rw [hj, (shows_send q rfl).samples]
  · obtain ⟨j, hj⟩ := risingSamples_sendEvents_append p 0 unspecifiedPins (sent.flatMap sendEvents)
    rw [State.sampledBitstream, hh, hW, sampledBits_bothOk, List.flatMap_cons, hj, (shows_sends sent).samples]
    exact (risingSamples_sendEvents p 0 unspecifiedPins).imp (congrArg (· ++ _)) (congrArg (· ++ _))

/-! ## Data changes only while the clock is low (R162) -/

section DataWhileLow

variable (es : List Event)

/-- A pulse leaves the clock low, whatever level it finds. -/
theorem dataWhileLow_pulse_append (clk : Bool) : dataWhileLow clk (pulse ++ es) = dataWhileLow false es := rfl

theorem dataWhileLow_pulses_append (n : Nat) : dataWhileLow false (pulses n ++ es) = dataWhileLow false es := by
  induction n with
  | zero => rfl
  | succ n ih =>
    rw [pulses_succ, List.append_assoc, dataWhileLow_pulse_append, ih]

theorem dataWhileLow_cell_append (v : Bool) : dataWhileLow false (cell v ++ es) = dataWhileLow false es := rfl

theorem dataWhileLow_cells_append (bits : List Bool) :
    dataWhileLow false (bits.flatMap cell ++ es) = dataWhileLow false es := by
  induction bits with
  | nil => rfl
  | cons b bits ih =>
    rw [List.flatMap_cons, List.append_assoc, dataWhileLow_cell_append, ih]

theorem dataWhileLow_latch_append : dataWhileLow false (latchEvents ++ es) = dataWhileLow false es :=
  dataWhileLow_pulses_append es 36

theorem dataWhileLow_sendRest_append : dataWhileLow false (sendRest p ++ es) = dataWhileLow false es := by
  rw [sendRest, List.append_assoc, List.append_assoc, dataWhileLow_pulses_append, dataWhileLow_cells_append,
    dataWhileLow_latch_append]

theorem dataWhileLow_send_append : dataWhileLow false (sendEvents p ++ es) = dataWhileLow false es := by
  rw [sendEvents_eq_cell_rest, List.append_assoc, dataWhileLow_cell_append, dataWhileLow_sendRest_append]

end DataWhileLow

theorem dataWhileLow_sends (sent : List (Fin 8 → Pixel)) : dataWhileLow false (sent.flatMap sendEvents) = true := by
  induction sent with
  | nil => rfl
  | cons p sent ih => rw [List.flatMap_cons, dataWhileLow_send_append, ih]

/-- Settles O45: after the very first data write comes a pulse, which leaves the clock low. -/
theorem dataChangesOnlyWhileClockLow : Obligations.DataChangesOnlyWhileClockLow := by
  intro clk sent
  cases sent with
  | nil => rfl
  | cons p sent =>
    have htail : ((p :: sent).flatMap sendEvents).tail = pulse ++ (sendRest p ++ sent.flatMap sendEvents) := by
      rw [List.flatMap_cons, sendEvents_eq_cell_rest, List.append_assoc]
      rfl
    rw [htail, dataWhileLow_pulse_append, dataWhileLow_sendRest_append, dataWhileLow_sends]

end Sys2Proof.Machine
end

section
/-! PROOFS. Reset before everything, a step that samples or idles (70_reset_and_hazards R221, 60_exceptions R207, R210),
and the faults: which check fails first (R198), and what a fault leaves (R190 to R196). -/

namespace Sys2Proof.Machine

variable {s t : State}

/-! ## Steps that run no command -/

/-- Settles O2: such a step is the reset, taken after the reset input has moved on. -/
theorem assertedResetComesFirst : Obligations.AssertedResetComesFirst := fun _ hr => step_reset hr

/-- What the idle block fetches without an instruction is the step's outcome. -/
theorem step_idle_done {o : Out} (hr : resetNow s = false) (hb : s.busy = false)
    (h : fetchAction (tickReset s) = .done o) : step s = o := by
  rw [step, fetch_idle s hr hb, h]

theorem fetchAction_none (h : s.env.port = []) : fetchAction s = .done (.next s) := by
  rw [fetchAction, h]

theorem fetchAction_sample {rest : List HostAction} (h : s.env.port = .sample :: rest) :
    fetchAction s = .done (.next (sampleStatus (setPort rest s))) := by
  rw [fetchAction, h]

/-- Settles O5: `STATUS` shows none of the inputs, so the sample after they have moved on is that of `s`. -/
theorem stepSamplesOrIdles : Obligations.StepSamplesOrIdles := fun s hr hb =>
  ⟨fun hp => step_idle_done hr hb (fetchAction_none (s := tickReset s) hp),
    fun _ hp => step_idle_done hr hb (fetchAction_sample (s := tickReset s) hp)⟩

/-! ## The checks (R192, R194, R198) -/

/-- The fault of a command whose one check is the mode, as `faultOf` has it. -/
def modeFault (s : State) : Option Code := if s.mode = .uninit then some .notReady else none

/-- The fault of a command with an index operand, as `faultOf` has it: the mode comes before the index. -/
def indexFault (idx : Int) (s : State) : Option Code :=
  if s.mode = .uninit then some .notReady else if idx < 0 ∨ 7 < idx then some .invalidArgument else none

theorem modeFault_uninit (hm : s.mode = .uninit) : modeFault s = some .notReady := if_pos hm

theorem modeFault_ready (hm : s.mode = .ready) : modeFault s = none := by
  rw [modeFault, if_neg (by simp [hm])]

theorem indexFault_uninit (idx : Int) (hm : s.mode = .uninit) : indexFault idx s = some .notReady := if_pos hm

theorem indexFault_outside {idx : Int} (hm : s.mode = .ready) (hi : idx < 0 ∨ 7 < idx) :
    indexFault idx s = some .invalidArgument := by
  rw [indexFault, if_neg (by simp [hm]), if_pos hi]

theorem indexFault_inside (i : Fin 8) (hm : s.mode = .ready) : indexFault i.val s = none := by
  rw [indexFault, if_neg (by simp [hm]), if_neg (by omega)]

/-- An index operand names a slot or lies outside the strip. -/
theorem index_cases (idx : Int) : (idx < 0 ∨ 7 < idx) ∨ ∃ i : Fin 8, idx = i.val := by
  cases h : slotIndex idx with
  | none => exact .inl (slotIndex_eq_none.mp h)
  | some i => exact .inr ⟨i, slotIndex_eq_some.mp h⟩

/-! ## A command that faults (R196) -/

theorem whenReady_of_modeFault {c : Code} {k : Out} (h : modeFault s = some c) :
    whenReady s k = .next (completedWith c s) := by
  cases hm : s.mode with
  | uninit =>
    cases (modeFault_uninit hm).symm.trans h
    exact whenReady_uninit s hm
  | ready => exact nomatch (modeFault_ready hm).symm.trans h

theorem whenReady_atIndex_of_indexFault {idx : Int} {c : Code} {k : Fin 8 → Out} (h : indexFault idx s = some c) :
    whenReady s (atIndex idx s k) = .next (completedWith c s) := by
  cases hm : s.mode with
  | uninit =>
    cases (indexFault_uninit idx hm).symm.trans h
    exact whenReady_uninit s hm
  | ready =>
    obtain hi | ⟨i, rfl⟩ := index_cases idx
    · cases (indexFault_outside hm hi).symm.trans h
      rw [whenReady_ready s hm, atIndex, slotIndex_eq_none.mpr hi]
      rfl
    · exact nomatch (indexFault_inside i hm).symm.trans h

/-- R198, R213: a command completes with the fault of its first failing check, and R196's effect. -/
theorem exec_of_faultOf {i : Instr} {c : Code} (hb : s.busy = false) (hf : faultOf i s = some c) :
    exec i s = .next (completedWith c s) := by
  cases i with
  | latch | pixelFrame => exact nomatch hf
  | reserved00 | reserved080F | reserved101F | reserved203F | reserved407F | reserved80FF =>
    cases hf
    exact illegalCommand_idle hb
  | setup =>
    obtain ⟨hm, hc⟩ := Option.ite_none_right_eq_some.mp hf
    cases hc
    exact (whenIdle_idle s hb).trans (whenUninit_ready s hm)
  | setAll | clearAll | send => exact (whenIdle_idle s hb).trans (whenReady_of_modeFault hf)
  | setPixel | setPixelK | setBright => exact (whenIdle_idle s hb).trans (whenReady_atIndex_of_indexFault hf)

/-- Settles O13: the mode is the one check of `SETUP`. -/
theorem secondSetupIsAlreadySetup : Obligations.SecondSetupIsAlreadySetup :=
  fun _ hb hm => ⟨exec_of_faultOf hb (if_pos hm), rfl⟩

/-- In `Uninit` the mode check of every legal command but `SETUP` fails, whatever its operands are. -/
theorem faultOf_uninit {i : Instr} (hk : i.kind = .command) (hi : i ≠ .setup) (hm : s.mode = .uninit) :
    faultOf i s = some .notReady := by
  cases i with
  | setup => exact absurd rfl hi
  | setAll | clearAll | send => exact modeFault_uninit hm
  | setPixel | setPixelK | setBright => exact indexFault_uninit _ hm
  | _ => exact nomatch hk

/-- Settles O27: the mode check comes first and fails. -/
theorem commandsBeforeSetupAreNotReady : Obligations.CommandsBeforeSetupAreNotReady :=
  fun _ _ hk hi hb hm => ⟨exec_of_faultOf hb (faultOf_uninit hk hi hm), rfl⟩

/-- Settles O28: the mode check passes and the index check fails, the same in all three commands. -/
theorem indexOutsideTheStripIsInvalidArgument : Obligations.IndexOutsideTheStripIsInvalidArgument := by
  intro idx r g b bf s hb hm hi
  have hf := indexFault_outside hm hi
  exact ⟨exec_of_faultOf (i := .setPixel idx r g b bf) hb hf, exec_of_faultOf (i := .setPixelK idx r g b) hb hf,
    exec_of_faultOf (i := .setBright idx bf) hb hf, rfl⟩

/-! ## The sticky bits (R28, R196) -/

theorem record_illegal (f : Faults) (c : Code) :
    (f.record c).illegal = (f.illegal || decide (c = .illegalCommand)) := by
  cases c <;> simp [Faults.record]

theorem record_notReady (f : Faults) (c : Code) : (f.record c).notReady = (f.notReady || decide (c = .notReady)) := by
  cases c <;> simp [Faults.record]

theorem record_already (f : Faults) (c : Code) : (f.record c).already = (f.already || decide (c = .alreadySetup)) := by
  cases c <;> simp [Faults.record]

theorem record_invArg (f : Faults) (c : Code) : (f.record c).invArg = (f.invArg || decide (c = .invalidArgument)) := by
  cases c <;> simp [Faults.record]

/-- Settles O30: the state is `completedWith` of the code, whose record leaves three of the sticky bits. -/
theorem faultChangesOnlyStatus : Obligations.FaultChangesOnlyStatus := fun _ s c _ hb hf =>
  ⟨completedWith c s, exec_of_faultOf hb hf, rfl, record_illegal s.faults c, record_notReady s.faults c,
    record_already s.faults c, record_invArg s.faults c, rfl, rfl⟩

/-! ## A command that passes its checks -/

theorem ready_of_modeFault_none (h : modeFault s = none) : s.mode = .ready := by
  cases hm : s.mode with
  | uninit => exact nomatch (modeFault_uninit hm).symm.trans h
  | ready => rfl

theorem ready_and_slot_of_indexFault_none {idx : Int} (h : indexFault idx s = none) :
    s.mode = .ready ∧ ∃ i : Fin 8, idx = i.val := by
  cases hm : s.mode with
  | uninit => exact nomatch (indexFault_uninit idx hm).symm.trans h
  | ready =>
    obtain hi | hi := index_cases idx
    · exact nomatch (indexFault_outside hm hi).symm.trans h
    · exact ⟨rfl, hi⟩

/-- `SETUP` in `Uninit` sets no sticky bit, whatever the two opens answer (R205). -/
theorem setup_uninit_faults (hb : s.busy = false) (hm : s.mode = .uninit) (h : exec .setup s = .next t) :
    t.faults = s.faults := by
  obtain ⟨u, _, _, _, _, hu, -, heq, -⟩ := setupAcquiresFillsAndIsReady s hb hm
  cases hu.symm.trans h
  rw [heq]

/-- Where no check fails no sticky bit is set (R196, R198). -/
theorem faults_of_faultOf_none {i : Instr} (hk : i.kind ≠ .wireSymbol) (hb : s.busy = false)
    (hf : faultOf i s = none) (h : exec i s = .next t) : t.faults = s.faults := by
  cases i with
  | latch | pixelFrame => exact absurd rfl hk
  | reserved00 | reserved080F | reserved101F | reserved203F | reserved407F | reserved80FF => exact nomatch hf
  | setup =>
    cases hm : s.mode with
    | uninit => exact setup_uninit_faults hb hm h
    | ready => exact nomatch hf.symm.trans (if_pos hm)
  | setAll r g b bf =>
    cases (exec_setAll_drawn r g b bf hb (ready_of_modeFault_none hf)).symm.trans h
    rfl
  | clearAll =>
    cases (exec_clearAll_ready hb (ready_of_modeFault_none hf)).symm.trans h
    rfl
  | send =>
    cases (sendIsAdmitted s hb (ready_of_modeFault_none hf)).symm.trans h
    rfl
  | setPixel idx r g b bf =>
    obtain ⟨hm, i, rfl⟩ := ready_and_slot_of_indexFault_none hf
    cases (exec_setPixel_ready i r g b bf hb hm).symm.trans h
    rfl
  | setPixelK idx r g b =>
    obtain ⟨hm, i, rfl⟩ := ready_and_slot_of_indexFault_none hf
    cases (exec_setPixelK_ready i r g b hb hm).symm.trans h
    rfl
  | setBright idx bf =>
    obtain ⟨hm, i, rfl⟩ := ready_and_slot_of_indexFault_none hf
    cases hi : s.slot i with
    | none => exact nomatch (setBrightOfAnUndefinedSlotStops i bf s hb hm hi).symm.trans h
    | some p =>
      cases (exec_setBright_ready bf hb hm hi).symm.trans h
      rfl

/-- Settles O29: by whether a check fails. -/
theorem firstFailingCheckDecides : Obligations.FirstFailingCheckDecides := fun _ _ hk hb =>
  ⟨fun _ hf => exec_of_faultOf hb hf, fun hf _ h => faults_of_faultOf_none hk hb hf h⟩

/-! ## Reserved and legal opcodes (R191) -/

theorem faultOf_reservedRow (op : Byte) (s : State) : faultOf (reservedRow op) s = some .illegalCommand := by
  unfold reservedRow
  split_ifs <;> rfl

/-- No check of a legal command gives `IllegalCommand`. -/
theorem faultOf_ne_illegalCommand {i : Instr} (hk : i.kind = .command) : faultOf i s ≠ some .illegalCommand := by
  cases i with
  | setup | setPixel | setPixelK | setAll | setBright | clearAll | send =>
    simp only [faultOf]
    split_ifs <;> exact nofun
  | _ => exact nomatch hk

/-- A legal opcode decodes to its command (R72). -/
theorem decode_kind_of_legal {cw : BitVec 200} (h : ¬((opField cw).toNat = 0 ∨ 8 ≤ (opField cw).toNat)) :
    (decode cw).kind = .command := by
  obtain h1 | h2 | h3 | h4 | h5 | h6 | h7 | h0 := opcode_cases (opField cw).toNat
  · exact congrArg Instr.kind (decode_setup h1)
  · exact congrArg Instr.kind (decode_setPixel h2)
  · exact congrArg Instr.kind (decode_setPixelK h3)
  · exact congrArg Instr.kind (decode_setAll h4)
  · exact congrArg Instr.kind (decode_setBright h5)
  · exact congrArg Instr.kind (decode_clearAll h6)
  · exact congrArg Instr.kind (decode_send h7)
  · exact absurd h0 h

/-- Settles O11: a reserved opcode decodes to its row, which faults; a legal one to a command, which faults with another
code or sets no sticky bit. -/
theorem reservedOpcodesRaiseIllegalCommand : Obligations.ReservedOpcodesRaiseIllegalCommand := by
  intro cw s hb
  split_ifs with hop
  · rw [decode_reserved hop]
    exact exec_of_faultOf hb (faultOf_reservedRow _ s)
  · intro t h
    cases hf : faultOf (decode cw) s with
    | none => rw [faults_of_faultOf_none (decode_kind cw) hb hf h]
    | some c =>
      have hc : c ≠ .illegalCommand := fun hc => faultOf_ne_illegalCommand (decode_kind_of_legal hop) (hc ▸ hf)
      cases (exec_of_faultOf hb hf).symm.trans h
      exact (record_illegal s.faults c).trans (by rw [decide_eq_false hc, Bool.or_false])

end Sys2Proof.Machine
end

section
/-! PROOFS. The state a reset leaves, and the step with no host action and no reset to come (70_reset_and_hazards R220). -/

namespace Sys2Proof.Machine

variable {s : State}

theorem status_takeReset (s : State) : (takeReset s).status = 0x0000#16 :=
  show State.reset.status = 0x0000#16 by decide

theorem tickReset_of_rst_nil (h : s.env.rst = []) : tickReset s = s := by
  rw [tickReset, h, List.tail_nil, ← h]
  rfl

/-- The idle block with no input left stays as it is. -/
theorem step_of_no_inputs (hb : s.busy = false) (hr : s.env.rst = []) (hp : s.env.port = []) : step s = .next s := by
  have hnow : resetNow s = false := by rw [resetNow, hr, List.headD_nil]
  have hstay := step_idle_done hnow hb (fetchAction_none (s := tickReset s) hp)
  rwa [tickReset_of_rst_nil hr] at hstay

/-- Settles O1: the reset state is itself what a reset gives, so the clauses are those of `takeReset`. -/
theorem resetLeavesTheSpecsState : Obligations.ResetLeavesTheSpecsState := by
  intro t ht
  obtain ⟨s, rfl⟩ : ∃ s, t = takeReset s := ht.elim (fun h => ⟨State.reset, h⟩) id
  refine ⟨rfl, slot_takeReset s, ?handles, ?pins, rfl, rfl, status_takeReset s, rfl, rfl, step_of_no_inputs rfl⟩
  case handles => intro l; cases l <;> rfl
  case pins => intro l; cases l <;> rfl

end Sys2Proof.Machine
end
